-- ==== Sys2Proof/Word.lean ====
section
/-! DEFINITION. The words of the block: a 64-bit lane for the values the spec computes at `zext_64`
(virtual addresses, masks, frame numbers, physical addresses) and the 32-bit index word. -/

namespace Sys2Proof

/-- A 64-bit lane. A value of a narrower width (VAW, PAW, PFNW bits) stands in its low bits, zeros above
(00_scope.md R5, R10; the lane itself is the model's, log entry 9). -/
abbrev Word := BitVec 64

/-- The 32-bit `index`, `wired` and `rand` signals (30_encoding.md R80, 20_memory.md R52). -/
abbrev IndexWord := BitVec 32

end Sys2Proof
end

