-- ==== Sys2Proof/Config.lean ====
section
/-! DEFINITION. The configuration record: the implementation parameters the spec leaves OPEN
(00_scope.md R5 to R9, 60_exceptions.md R199), and the free values. Every statement of the package is
about an arbitrary configuration; `Config.vectors` is only the one `State.reset` carries (log entry 1). -/

namespace Sys2Proof

/-- VAW is 32 or 64 (R5). -/
inductive AddrWidth
  | w32
  | w64
  deriving DecidableEq, Repr

/-- VAW in bits. -/
def AddrWidth.bits : AddrWidth → Nat
  | .w32 => 32
  | .w64 => 64

/-- The translation strategy strap STRATEGY (R6). -/
inductive Strategy
  | none
  | fixed
  | softwareRefill
  deriving DecidableEq, Repr

/-- The four reasons of a translation miss (60_exceptions.md R180). -/
inductive MissReason
  | refill
  | invalid
  | modified
  | accessDenied
  deriving DecidableEq, Repr

/-- One window of FIXED_WINDOWS, on naturals (R7, R12). -/
structure Window where
  vbase : Nat
  vsize : Nat
  pbase : Nat
  deriving DecidableEq, Repr

/-- The capability set CAPS (R8). -/
structure Caps where
  isa64 : Bool
  r2    : Bool
  r6    : Bool
  m32   : Bool
  mips4 : Bool
  dsp   : Bool
  dspr2 : Bool
  msa   : Bool
  deriving DecidableEq, Repr

/-- The four IEEE rounding modes (60_exceptions.md R199). -/
inductive RoundingMode
  | nearestEven
  | towardZero
  | towardPlus
  | towardMinus
  deriving DecidableEq, Repr

/-- RM_TABLE: the mode each of the four values of a rounding field selects (R199). -/
structure RmTable where
  rm0 : RoundingMode
  rm1 : RoundingMode
  rm2 : RoundingMode
  rm3 : RoundingMode
  deriving DecidableEq, Repr

/-- The configuration record (R5 to R9, R199). -/
structure Config where
  /-- NTLB, the number of TLB entries. -/
  ntlb            : Nat
  /-- VAW, the width of a virtual address. -/
  vaw             : AddrWidth
  /-- PG, log2 of the smallest page size. -/
  pg              : Nat
  /-- ASIDW, the width of an ASID. -/
  asidw           : Nat
  /-- CW, the width of the Cacheability attribute. -/
  cw              : Nat
  /-- PABITS_BASE, the base physical-address width. -/
  pabitsBase      : Nat
  /-- PABITS_EXT, the extended physical-address width; PAW is the same number. -/
  pabitsExt       : Nat
  /-- STRATEGY. -/
  strategy        : Strategy
  /-- FIXED_WINDOWS. -/
  fixedWindows    : List Window
  /-- FIXED_MISS_REASON. -/
  fixedMissReason : MissReason
  /-- CAPS. -/
  caps            : Caps
  /-- RI_BLOCKS_EXECUTE. -/
  riBlocksExecute : Bool
  /-- RM_TABLE. -/
  rmTable         : RmTable
  deriving DecidableEq, Repr

namespace Config

/-- VAW in bits (R5). -/
def vabits (c : Config) : Nat := c.vaw.bits

/-- `W64 = (VAW == 64)` (R5). -/
def w64 (c : Config) : Bool := c.vaw == .w64

/-- `PAW = PABITS_EXT` (R5). -/
def paw (c : Config) : Nat := c.pabitsExt

/-- `PFNW = PAW - PG` (R5). -/
def pfnw (c : Config) : Nat := c.paw - c.pg

/-- The constraints of a window (R7). -/
def windowOk (c : Config) (w : Window) : Bool :=
  decide (w.vbase < 2 ^ c.vabits) && decide (1 ≤ w.vsize) && decide (w.vsize ≤ 2 ^ c.vabits - w.vbase)
    && decide (w.pbase < 2 ^ c.paw)

/-- The constraints the spec puts on the parameters (R5, R7); `NTLB ≤ 2^32` is read from the 32-bit
index result (log entry 11). -/
def wf (c : Config) : Bool :=
  decide (1 ≤ c.ntlb) && decide (c.ntlb ≤ 2 ^ 32)
    && decide (1 ≤ c.pg) && decide (c.pg ≤ c.vabits - 1)
    && decide (1 ≤ c.asidw) && decide (1 ≤ c.cw)
    && decide (c.pg < c.pabitsBase) && decide (c.pabitsBase ≤ c.pabitsExt) && decide (c.pabitsExt ≤ 64)
    && c.fixedWindows.all c.windowOk

/-- The conventional rounding table, the default of RM_TABLE (R199, 93_implementation_defined.md G7;
PRESUMED, log entry 15). -/
def conventionalRm : RmTable :=
  { rm0 := .nearestEven, rm1 := .towardZero, rm2 := .towardPlus, rm3 := .towardMinus }

/-- The configuration of the spec's examples (R5 column "vectors", 95_test_vectors.md; CAPS32 of its
part 2.4), which `State.reset` carries. DESIGN CHOICE (log entry 1). -/
def vectors : Config :=
  { ntlb := 8, vaw := .w32, pg := 12, asidw := 8, cw := 3, pabitsBase := 36, pabitsExt := 40
    strategy := .softwareRefill, fixedWindows := [], fixedMissReason := .refill
    caps := { isa64 := false, r2 := true, r6 := false, m32 := true, mips4 := true
              dsp := false, dspr2 := false, msa := false }
    riBlocksExecute := true, rmTable := conventionalRm }

end Config

/-- The state elements whose contents the spec leaves unspecified after the reset input
(70_reset_and_hazards.md R211, R213). -/
inductive FreeField
  | vpn
  | pageMask
  | asid
  | g
  | c (odd : Bool)
  | v (odd : Bool)
  | d (odd : Bool)
  | xi (odd : Bool)
  | ri (odd : Bool)
  | pfn (odd : Bool)
  | hflags
  | pamask
  deriving DecidableEq, Repr

/-- FREE VALUE: what an unspecified state element holds after the reset input. Nothing constrains it.
The first argument is the draw's number, the last the entry's index; the element keeps the low bits its
width has room for (log entry 6). -/
opaque Config.freeValue : Nat → FreeField → Nat → Nat

end Sys2Proof
end

