-- ==== Sys2Proof/Syntax.lean ====
section
/-! DEFINITION. The commands of the block, one constructor per row of spec/opcode_table.json, and the
command record on the command port (30_encoding.md R80 to R85). -/

namespace Sys2Proof

/-- The four values of the `kind` signal (30_encoding.md R85); `reserved` is `kind = 3` (R88). -/
inductive AccessKind
  | read
  | write
  | execute
  | reserved
  deriving DecidableEq, Repr

/-- A subpage record (10_state.md R24). -/
structure Subpage where
  /-- Cacheability, CW bits. -/
  c   : Nat
  /-- Valid. -/
  v   : Bool
  /-- Dirty. -/
  d   : Bool
  /-- Execute-Inhibit. -/
  xi  : Bool
  /-- Read-Inhibit. -/
  ri  : Bool
  /-- PhysicalFrameNumber, PFNW bits, in units of 2^PG bytes. -/
  pfn : Word
  deriving DecidableEq, Repr

/-- The entry fields `f.*` that TLBWI and TLBWR install (30_encoding.md R80). -/
structure EntryFields where
  vpn  : Word
  mask : Word
  asid : Nat
  g    : Bool
  sub0 : Subpage
  sub1 : Subpage
  deriving DecidableEq, Repr

/-- The command record: the signals of the command port but `cmd_valid` (30_encoding.md R80). A value
wider than its signal is cut to the signal when the record is decoded. -/
structure CmdRecord where
  op    : BitVec 4
  va    : Word
  kind  : BitVec 2
  asid  : Nat
  index : IndexWord
  ext   : Bool
  wired : IndexWord
  rand  : IndexWord
  f     : EntryFields
  deriving DecidableEq, Repr

/-- The eight commands, each with the operands 30_encoding.md R83 gives it. -/
inductive Instr
  /-- XLATE (40_translate.md R100). -/
  | xlate (va : Word) (kind : AccessKind) (asid : Nat)
  /-- TLBWI (41_tlb_maintenance.md R121). -/
  | tlbwi (index : IndexWord) (f : EntryFields)
  /-- TLBWR (41_tlb_maintenance.md R122). -/
  | tlbwr (wired : IndexWord) (rand : IndexWord) (f : EntryFields)
  /-- TLBP (41_tlb_maintenance.md R123). -/
  | tlbp (va : Word) (asid : Nat)
  /-- TLBR (41_tlb_maintenance.md R124). -/
  | tlbr (index : IndexWord)
  /-- TLBINV (41_tlb_maintenance.md R125). -/
  | tlbinv (index : IndexWord) (ext : Bool)
  /-- TLBFLUSH (41_tlb_maintenance.md R126). -/
  | tlbflush
  /-- DERIVE (42_hflags.md R150). -/
  | derive
  deriving DecidableEq, Repr

end Sys2Proof
end

