-- ==== Sys2Proof/WellFormed.lean ====
section
/-! DEFINITION. Which commands the port can present under a configuration: every operand fits its signal
(30_encoding.md R80, widths of 00_scope.md R5). Legality of the values is not a matter of form: R92 makes
every operand value legal. -/

namespace Sys2Proof

/-- A subpage record fits its `CW+4+PFNW` wires. -/
def Subpage.wellFormed (c : Config) (s : Subpage) : Bool :=
  decide (s.c < 2 ^ c.cw) && decide (s.pfn.toNat < 2 ^ c.pfnw)

/-- The fields `f.*` fit their wires. -/
def EntryFields.wellFormed (c : Config) (f : EntryFields) : Bool :=
  decide (f.vpn.toNat < 2 ^ c.vabits) && decide (f.mask.toNat < 2 ^ c.vabits)
    && decide (f.asid < 2 ^ c.asidw) && f.sub0.wellFormed c && f.sub1.wellFormed c

/-- Every operand of the command fits its signal. -/
def Instr.wellFormed (c : Config) : Instr → Bool
  | .xlate va _ asid => decide (va.toNat < 2 ^ c.vabits) && decide (asid < 2 ^ c.asidw)
  | .tlbwi _ f       => f.wellFormed c
  | .tlbwr _ _ f     => f.wellFormed c
  | .tlbp va asid    => decide (va.toNat < 2 ^ c.vabits) && decide (asid < 2 ^ c.asidw)
  | .tlbr _          => true
  | .tlbinv _ _      => true
  | .tlbflush        => true
  | .derive          => true

end Sys2Proof
end

