-- ==== Sys2Proof/Decode.lean ====
section
/-! DEFINITION. The decoder of the command port (30_encoding.md R80 to R92), total on any bits and
rejecting a reserved opcode by name; after it the encoder; and the numbering of spec/opcode_table.json. -/

namespace Sys2Proof

/-! ### Bits and fields -/

/-- The low `w` bits of a lane: what `w` wires carry of it. -/
def lowBits (w : Nat) (x : Word) : Word := BitVec.ofNat 64 (x.toNat % 2 ^ w)

/-- The low `w` bits of a natural number. -/
def lowNat (w x : Nat) : Nat := x % 2 ^ w

/-- A one-bit signal as a number. -/
def bitNat (b : Bool) : Nat := if b then 1 else 0

/-- The number of (width, value) fields joined, the first least significant. -/
def joinLow : List (Nat × Nat) → Nat
  | []             => 0
  | (w, v) :: rest => lowNat w v + 2 ^ w * joinLow rest

/-- The fields of a number, the first least significant. -/
def splitLow : List Nat → Nat → List Nat
  | [],      _ => []
  | w :: ws, n => lowNat w n :: splitLow ws (n / 2 ^ w)

/-- Concatenation `a ‖ b ‖ …` of (width, value) fields, the first most significant (00_scope.md R10). -/
def joinFields (l : List (Nat × Nat)) : Nat := joinLow l.reverse

/-- The fields of a packed number, the first most significant. -/
def splitFields (ws : List Nat) (n : Nat) : List Nat := (splitLow ws.reverse n).reverse

/-! ### Access kind (R85) -/

/-- The access kind a `kind` signal names. -/
def AccessKind.ofBits (k : BitVec 2) : AccessKind :=
  match k.toNat with
  | 0 => .read
  | 1 => .write
  | 2 => .execute
  | _ => .reserved

/-- The `kind` signal of an access kind. -/
def AccessKind.toBits : AccessKind → BitVec 2
  | .read     => 0
  | .write    => 1
  | .execute  => 2
  | .reserved => 3

/-! ### The record at its widths (R80) -/

/-- A subpage record on its wires. -/
def Subpage.clip (c : Config) (s : Subpage) : Subpage :=
  { s with c := lowNat c.cw s.c, pfn := lowBits c.pfnw s.pfn }

/-- The fields `f.*` on their wires. -/
def EntryFields.clip (c : Config) (f : EntryFields) : EntryFields :=
  { vpn := lowBits c.vabits f.vpn, mask := lowBits c.vabits f.mask, asid := lowNat c.asidw f.asid
    g := f.g, sub0 := f.sub0.clip c, sub1 := f.sub1.clip c }

/-- The record on the wires of the command port. -/
def CmdRecord.clip (c : Config) (r : CmdRecord) : CmdRecord :=
  { r with va := lowBits c.vabits r.va, asid := lowNat c.asidw r.asid, f := r.f.clip c }

/-! ### Decoding (R82, R83, R87) -/

/-- Why a command record names no command. -/
inductive DecodeReject
  /-- A reserved `cmd_op`: 0x0 or 0x9 to 0xF (R87). The block answers it Err.IllegalCommand; safe. -/
  | reservedOpcode (op : BitVec 4)
  deriving DecidableEq, Repr

/-- The command a record names: all four bits of `cmd_op` decide (R82), and each command takes the
operands R83 lists for it and ignores the rest. -/
def decode (c : Config) (r : CmdRecord) : Except DecodeReject Instr :=
  let q := r.clip c
  match r.op.toNat with
  | 1 => .ok (.xlate q.va (AccessKind.ofBits q.kind) q.asid)
  | 2 => .ok (.tlbwi q.index q.f)
  | 3 => .ok (.tlbwr q.wired q.rand q.f)
  | 4 => .ok (.tlbp q.va q.asid)
  | 5 => .ok (.tlbr q.index)
  | 6 => .ok (.tlbinv q.index q.ext)
  | 7 => .ok .tlbflush
  | 8 => .ok .derive
  | _ => .error (.reservedOpcode r.op)

/-! ### The packed record (R92) -/

/-- The widths of a packed subpage record: c, v, d, xi, ri, pfn (R80). -/
def subpageWidths (c : Config) : List Nat := [c.cw, 1, 1, 1, 1, c.pfnw]

/-- The widths of the operand signals, in the order of the table of R80 (`cmd_valid` is no part of the
packed record, log entry 10). -/
def operandWidths (c : Config) : List Nat :=
  [c.vabits, 2, c.asidw, 32, 1, 32, 32, c.vabits, c.vabits, c.asidw, 1] ++ subpageWidths c ++ subpageWidths c

/-- The widths of the packed record's fields: `cmd_op` in the four most significant bits, then the operands
(R92). -/
def recordWidths (c : Config) : List Nat := 4 :: operandWidths c

/-- The number of bits of the packed record. -/
def recordBits (c : Config) : Nat := (recordWidths c).sum

/-- The subpage record in six consecutive fields from position `k`. -/
def Subpage.ofFields (fs : List Nat) (k : Nat) : Subpage :=
  { c := fs.getD k 0, v := fs.getD (k + 1) 0 == 1, d := fs.getD (k + 2) 0 == 1
    xi := fs.getD (k + 3) 0 == 1, ri := fs.getD (k + 4) 0 == 1, pfn := BitVec.ofNat 64 (fs.getD (k + 5) 0) }

/-- The record of a list of fields, in the order of `recordWidths`. -/
def CmdRecord.ofFields (fs : List Nat) : CmdRecord :=
  { op := BitVec.ofNat 4 (fs.getD 0 0), va := BitVec.ofNat 64 (fs.getD 1 0), kind := BitVec.ofNat 2 (fs.getD 2 0)
    asid := fs.getD 3 0, index := BitVec.ofNat 32 (fs.getD 4 0), ext := fs.getD 5 0 == 1
    wired := BitVec.ofNat 32 (fs.getD 6 0), rand := BitVec.ofNat 32 (fs.getD 7 0)
    f := { vpn := BitVec.ofNat 64 (fs.getD 8 0), mask := BitVec.ofNat 64 (fs.getD 9 0), asid := fs.getD 10 0
           g := fs.getD 11 0 == 1, sub0 := Subpage.ofFields fs 12, sub1 := Subpage.ofFields fs 18 } }

/-- The record packed in the low `recordBits c` bits of a number (R92). -/
def CmdRecord.unpack (c : Config) (n : Nat) : CmdRecord := CmdRecord.ofFields (splitFields (recordWidths c) n)

/-- The command a packed record names, total on any number. -/
def decodeWord (c : Config) (n : Nat) : Except DecodeReject Instr := decode c (CmdRecord.unpack c n)

/-! ### Encoding -/

/-- A subpage record of zeros, what the encoder drives on the wires a command ignores. -/
def Subpage.zero : Subpage := { c := 0, v := false, d := false, xi := false, ri := false, pfn := 0 }

/-- Entry fields of zeros. -/
def EntryFields.zero : EntryFields :=
  { vpn := 0, mask := 0, asid := 0, g := false, sub0 := Subpage.zero, sub1 := Subpage.zero }

/-- The record of zeros with an opcode. -/
def CmdRecord.zero (op : BitVec 4) : CmdRecord :=
  { op := op, va := 0, kind := 0, asid := 0, index := 0, ext := false, wired := 0, rand := 0, f := EntryFields.zero }

/-- The record that presents a command; the signals the command ignores are zero (log entry 23). -/
def encode : Instr → CmdRecord
  | .xlate va kind asid => { CmdRecord.zero 1 with va := va, kind := kind.toBits, asid := asid }
  | .tlbwi index f      => { CmdRecord.zero 2 with index := index, f := f }
  | .tlbwr wired rand f => { CmdRecord.zero 3 with wired := wired, rand := rand, f := f }
  | .tlbp va asid       => { CmdRecord.zero 4 with va := va, asid := asid }
  | .tlbr index         => { CmdRecord.zero 5 with index := index }
  | .tlbinv index ext   => { CmdRecord.zero 6 with index := index, ext := ext }
  | .tlbflush           => CmdRecord.zero 7
  | .derive             => CmdRecord.zero 8

/-- The values of a packed subpage record, in the order of `subpageWidths`. -/
def Subpage.values (s : Subpage) : List Nat :=
  [s.c, bitNat s.v, bitNat s.d, bitNat s.xi, bitNat s.ri, s.pfn.toNat]

/-- The values of the packed record, in the order of `recordWidths`. -/
def CmdRecord.values (r : CmdRecord) : List Nat :=
  [r.op.toNat, r.va.toNat, r.kind.toNat, r.asid, r.index.toNat, bitNat r.ext, r.wired.toNat, r.rand.toNat,
    r.f.vpn.toNat, r.f.mask.toNat, r.f.asid, bitNat r.f.g] ++ r.f.sub0.values ++ r.f.sub1.values

/-- The packed record (R92). -/
def CmdRecord.pack (c : Config) (r : CmdRecord) : Nat := joinFields ((recordWidths c).zip r.values)

/-- The packed record that presents a command. -/
def encodeWord (c : Config) (i : Instr) : Nat := (encode i).pack c

/-! ### The numbering of spec/opcode_table.json -/

/-- The command record of a word numbered as the opcode table numbers it: the table's bits 3..0 are
`cmd_op`, which the packed record holds in its four most significant bits (R92); the word's bits from 4 up
are the operand bits below it (log entry 10). Bits from `nbits` up are zero. -/
def CmdRecord.ofTableWord (c : Config) (nbits w : Nat) : CmdRecord :=
  let x := lowNat nbits w
  CmdRecord.ofFields (lowNat 4 x :: splitFields (operandWidths c) (x / 2 ^ 4))

/-- The command the decoder reads from a word numbered as the opcode table numbers it, under the
configuration `State.reset` carries. -/
def decodeTableWord (nbits w : Nat) : Option Instr :=
  match decode Config.vectors (CmdRecord.ofTableWord Config.vectors nbits w) with
  | .ok i    => some i
  | .error _ => none

end Sys2Proof
end

