-- ==== Sys2Proof/Machine/State.lean ====
section
/-! DEFINITION. The state of the block, its inputs and its response port, as plain data
(10_state.md, 30_encoding.md R80 and R84), the reasons a step can stop, and reset
(70_reset_and_hazards.md R210 to R214). -/

namespace Sys2Proof.Machine

open Sys2Proof

/-! ### The TLB store (10_state.md R20 to R27) -/

/-- A TranslationEntry (R21). -/
structure Entry where
  /-- VPN, VAW bits. -/
  vpn      : Word
  /-- PageMask, VAW bits. -/
  pageMask : Word
  /-- ASID, ASIDW bits. -/
  asid     : Nat
  /-- Global. -/
  g        : Bool
  /-- EntryInvalid (R23). -/
  ei       : Bool
  /-- The even subpage record. -/
  sub0     : Subpage
  /-- The odd subpage record. -/
  sub1     : Subpage
  deriving DecidableEq, Repr

/-- An invalid entry of zeros: what the model names as an entry's contents at reset (log entry 2). -/
def Entry.blank : Entry :=
  { vpn := 0, pageMask := 0, asid := 0, g := false, ei := true, sub0 := Subpage.zero, sub1 := Subpage.zero }

/-- The TLBStore: the entries, the live count (R26) and the active strategy (R27). -/
structure Store where
  entries   : List Entry
  liveCount : Nat
  strategy  : Strategy
  deriving DecidableEq, Repr

/-! ### The control-register inputs (R30) -/

/-- CR.Status. -/
structure StatusReg where
  ie  : Bool
  exl : Bool
  erl : Bool
  ksu : BitVec 2
  ux  : Bool
  sx  : Bool
  kx  : Bool
  px  : Bool
  im  : BitVec 8
  mx  : Bool
  fr  : Bool
  cu0 : Bool
  cu1 : Bool
  cu3 : Bool
  deriving DecidableEq, Repr

/-- CR.Cause. -/
structure CauseReg where
  ip : BitVec 8
  deriving DecidableEq, Repr

/-- CR.Config3. -/
structure Config3Reg where
  veic : Bool
  lpa  : Bool
  deriving DecidableEq, Repr

/-- CR.PageGrain. -/
structure PageGrainReg where
  elpa : Bool
  deriving DecidableEq, Repr

/-- CR.Config5. -/
structure Config5Reg where
  sbri  : Bool
  msaEn : Bool
  fre   : Bool
  deriving DecidableEq, Repr

/-- CR.FPIR. -/
structure FpirReg where
  f64  : Bool
  frep : Bool
  deriving DecidableEq, Repr

/-- CR.TCStatus. -/
structure TcStatusReg where
  ixmt : Bool
  a    : Bool
  deriving DecidableEq, Repr

/-- CR.TCHalt. -/
structure TcHaltReg where
  h : Bool
  deriving DecidableEq, Repr

/-- CR.MVPControl. -/
structure MvpControlReg where
  evp : Bool
  deriving DecidableEq, Repr

/-- CR.VPEConf0. -/
structure VpeConf0Reg where
  vpa : Bool
  deriving DecidableEq, Repr

/-- CR.VP: the two exclusive-mode facts. -/
structure VpReg where
  exclSelf    : Bool
  exclSibling : Bool
  deriving DecidableEq, Repr

/-- CR.FCR31 and CR.MSACSR: a rounding field and the three flags (bit 0 flush-to-zero, bit 1 denormal
handling, bit 2 NaN propagation, 60_exceptions.md R200). -/
structure FpCsrReg where
  rm    : BitVec 2
  flags : BitVec 3
  deriving DecidableEq, Repr

/-- The input bundle CR (R30). -/
structure ControlRegs where
  status     : StatusReg
  cause      : CauseReg
  config3    : Config3Reg
  pageGrain  : PageGrainReg
  config5    : Config5Reg
  fpir       : FpirReg
  tcStatus   : TcStatusReg
  tcHalt     : TcHaltReg
  mvpControl : MvpControlReg
  vpeConf0   : VpeConf0Reg
  vp         : VpReg
  fcr31      : FpCsrReg
  msacsr     : FpCsrReg
  deriving DecidableEq, Repr

/-- Every control-register input at 0: the value the model names at reset (log entry 4). -/
def ControlRegs.zero : ControlRegs :=
  { status := { ie := false, exl := false, erl := false, ksu := 0, ux := false, sx := false, kx := false
                px := false, im := 0, mx := false, fr := false, cu0 := false, cu1 := false, cu3 := false }
    cause := { ip := 0 }, config3 := { veic := false, lpa := false }, pageGrain := { elpa := false }
    config5 := { sbri := false, msaEn := false, fre := false }, fpir := { f64 := false, frep := false }
    tcStatus := { ixmt := false, a := false }, tcHalt := { h := false }, mvpControl := { evp := false }
    vpeConf0 := { vpa := false }, vp := { exclSelf := false, exclSibling := false }
    fcr31 := { rm := 0, flags := 0 }, msacsr := { rm := 0, flags := 0 } }

/-! ### The response port (30_encoding.md R84, 60_exceptions.md R180 to R184) -/

/-- The defects of the caller (R182, R183). -/
inductive ErrReason
  | indexOutOfRange
  | malformedFields
  | noVictim
  | illegalCommand
  deriving DecidableEq, Repr

/-- The status of a response, in its five classes (00_scope.md R13). -/
inductive Status
  | ok
  | miss (r : MissReason)
  | notFound
  | err (r : ErrReason)
  /-- Fatal.InternalInconsistency (R184). -/
  | fatal
  deriving DecidableEq, Repr

/-- What the response port carries. A result signal that R83 does not list for the command and status is
absent, not zero (R84). -/
structure Response where
  status : Status
  pa     : Option Word
  perms  : Option (BitVec 3)
  rIndex : Option IndexWord
  rEntry : Option Entry
  deriving DecidableEq, Repr

/-! ### The environment (00_scope.md R15, 10_state.md R33) -/

/-- One move of the environment: what it drives on the block's inputs for one step. -/
structure EnvMove where
  /-- The reset input (70_reset_and_hazards.md R210). -/
  rst : Bool
  /-- The control-register inputs (R30). -/
  cr  : ControlRegs
  /-- Debug-Mode (R31). -/
  dm  : Bool
  /-- The command port: `none` is `cmd_valid = 0` (30_encoding.md R80). -/
  cmd : Option CmdRecord
  deriving DecidableEq, Repr

/-! ### The state -/

/-- The state of the model. -/
structure State where
  /-- The configuration straps, constant after reset (00_scope.md R5 to R9; log entry 1). -/
  cfg : Config
  /-- The TLB store (10_state.md R20 to R27). -/
  store : Store
  /-- HFLAGS (R28). -/
  hflags : BitVec 16
  /-- PAMASK, PAW bits (R29). -/
  pamask : Word
  /-- The values on the control-register inputs (R30). -/
  cr : ControlRegs
  /-- The value on the Debug-Mode input (R31). -/
  dm : Bool
  /-- The response port: `none` is `rsp_valid = 0` (30_encoding.md R84; log entry 8). -/
  rsp : Option Response
  /-- The MODEL's own: the environment's moves on the coming steps (log entry 5). -/
  env : List EnvMove
  /-- The MODEL's own: the never-cleared record of a Fatal.InternalInconsistency response
  (60_exceptions.md R184; log entry 7). -/
  fatalRecorded : Bool
  /-- The MODEL's own: how many draws of free values have been made (log entry 6). -/
  draws : Nat
  deriving DecidableEq, Repr

/-- The machine never stops with a fault: every command is answered on the response port and the block
is then ready for the next (00_scope.md R13, 60_exceptions.md R186, R187; log entry 17). No constructor,
so no meaning can raise one. -/
inductive Fault
  deriving DecidableEq, Repr

/-- The reasons a step has no meaning. -/
inductive Refusal
  /-- An instruction without a meaning, raised by `exec`'s arm; safe. No arm raises it. -/
  | notModelled (mnemonic : String)
  deriving DecidableEq, Repr

/-! ### Reset (70_reset_and_hazards.md R210 to R214) -/

/-- The state right after reset under a configuration: every entry invalid (R211), `LiveCount = NTLB`,
`Strategy` the strap (R212). The entries' other fields, HFLAGS, PAMASK, CR and DM are 0, which the spec
does not say (log entries 2, 3, 4); no response and no move of the environment. -/
def State.resetOf (c : Config) : State :=
  { cfg := c
    store := { entries := List.replicate c.ntlb Entry.blank, liveCount := c.ntlb, strategy := c.strategy }
    hflags := 0, pamask := 0, cr := ControlRegs.zero, dm := false
    rsp := none, env := [], fatalRecorded := false, draws := 0 }

/-- The machine right after reset, under the configuration of the spec's examples (log entry 1). -/
def State.reset : State := State.resetOf Config.vectors

end Sys2Proof.Machine
end

