-- ==== Sys2Proof/Machine/Flags.lean ====
section
/-! DEFINITION. The hardware-flags derivation, one definition per item (42_hflags.md R152 to R167), the
layout of HFLAGS (10_state.md R28) and the accessors of its fields. -/

namespace Sys2Proof.Machine

open Sys2Proof

/-- Item 1: ERL mirrors Status.ERL (R152). -/
def deriveErl (cr : ControlRegs) : Bool := cr.status.erl

/-- Item 2: PL copies Status.KSU outside Exception Level, Error Level and Debug Mode, else 0 (R153). -/
def derivePl (cr : ControlRegs) (dm : Bool) : BitVec 2 :=
  if cr.status.exl = false ∧ cr.status.erl = false ∧ dm = false then cr.status.ksu else 0

/-- Item 3: the 64-bit-addressing flag (R154, R155; its condition is the spec's general knowledge,
log entry 14). -/
def deriveA64 (c : Config) (cr : ControlRegs) (dm : Bool) : Bool :=
  c.w64 && c.caps.isa64 && (derivePl cr dm != 2 || cr.status.ux || cr.status.px)

/-- Item 3: the Address-Wrap flag, the four-way rule in its order (R154, R156). -/
def deriveAwrap (c : Config) (cr : ControlRegs) (dm : Bool) : Bool :=
  c.w64 && (!c.caps.isa64
    || (derivePl cr dm == 2 && !cr.status.ux)
    || (c.caps.r6 && ((derivePl cr dm == 1 && !cr.status.sx) || (derivePl cr dm == 0 && !cr.status.kx))))

/-- Item 4: Coprocessor-0-usable (R157). -/
def deriveCp0 (c : Config) (cr : ControlRegs) (dm : Bool) : Bool :=
  (cr.status.cu0 && !c.caps.r6) || derivePl cr dm != 2

/-- Item 5: FPU-enabled mirrors Status.CU1 (R158). -/
def deriveFpu (cr : ControlRegs) : Bool := cr.status.cu1

/-- Item 5: 64-bit-float-registers mirrors Status.FR (R159). -/
def deriveF64 (cr : ControlRegs) : Bool := cr.status.fr

/-- Item 6: the SBRI trap flag (R160). -/
def deriveSbri (cr : ControlRegs) (dm : Bool) : Bool := derivePl cr dm != 0 && cr.config5.sbri

/-- Item 7: DSP-R2 (R161). -/
def deriveDspr2 (c : Config) (cr : ControlRegs) : Bool := c.caps.dspr2 && cr.status.mx

/-- Item 7: DSP (R161). -/
def deriveDsp (c : Config) (cr : ControlRegs) : Bool := (c.caps.dspr2 || c.caps.dsp) && cr.status.mx

/-- Item 8: COP1X, the first configured revision rule alone (R163). -/
def deriveCop1x (c : Config) (cr : ControlRegs) (dm : Bool) : Bool :=
  if c.caps.r2 then cr.fpir.f64
  else if c.caps.m32 then deriveA64 c cr dm
  else if c.caps.mips4 then cr.status.cu3
  else false

/-- Item 9: MSA (R164). -/
def deriveMsa (c : Config) (cr : ControlRegs) : Bool := c.caps.msa && cr.config5.msaEn

/-- Item 10: FRE (R165). -/
def deriveFre (cr : ControlRegs) : Bool := cr.fpir.frep && cr.config5.fre

/-- Item 11: extended physical addressing (R166). -/
def deriveElpa (cr : ControlRegs) : Bool := cr.config3.lpa && cr.pageGrain.elpa

/-- The whole flags word, bit 15 down to bit 0 (R150, R168). -/
def deriveHflags (c : Config) (cr : ControlRegs) (dm : Bool) : BitVec 16 :=
  0#1 ++ (BitVec.ofBool (deriveElpa cr) ++ (BitVec.ofBool (deriveFre cr) ++ (BitVec.ofBool (deriveMsa c cr)
    ++ (BitVec.ofBool (deriveCop1x c cr dm) ++ (BitVec.ofBool (deriveDspr2 c cr) ++ (BitVec.ofBool (deriveDsp c cr)
    ++ (BitVec.ofBool (deriveSbri cr dm) ++ (BitVec.ofBool (deriveF64 cr) ++ (BitVec.ofBool (deriveFpu cr)
    ++ (BitVec.ofBool (deriveCp0 c cr dm) ++ (BitVec.ofBool (deriveAwrap c cr dm) ++ (BitVec.ofBool (deriveA64 c cr dm)
    ++ (BitVec.ofBool (deriveErl cr) ++ derivePl cr dm)))))))))))))

/-- The physical-address mask: the extended or the base width in ones (R167). -/
def derivePamask (c : Config) (cr : ControlRegs) : Word :=
  BitVec.ofNat 64 (2 ^ (if deriveElpa cr then c.pabitsExt else c.pabitsBase) - 1)

/-! ### The fields of a flags word (10_state.md R28) -/

/-- `PL`, bits 1:0. -/
def hfPl (h : BitVec 16) : BitVec 2 := h.extractLsb' 0 2
/-- `ERL`, bit 2. -/
def hfErl (h : BitVec 16) : Bool := h.getLsbD 2
/-- `A64`, bit 3. -/
def hfA64 (h : BitVec 16) : Bool := h.getLsbD 3
/-- `AWRAP`, bit 4. -/
def hfAwrap (h : BitVec 16) : Bool := h.getLsbD 4
/-- `CP0`, bit 5. -/
def hfCp0 (h : BitVec 16) : Bool := h.getLsbD 5
/-- `FPU`, bit 6. -/
def hfFpu (h : BitVec 16) : Bool := h.getLsbD 6
/-- `F64`, bit 7. -/
def hfF64 (h : BitVec 16) : Bool := h.getLsbD 7
/-- `SBRI`, bit 8. -/
def hfSbri (h : BitVec 16) : Bool := h.getLsbD 8
/-- `DSP`, bit 9. -/
def hfDsp (h : BitVec 16) : Bool := h.getLsbD 9
/-- `DSPR2`, bit 10. -/
def hfDspr2 (h : BitVec 16) : Bool := h.getLsbD 10
/-- `COP1X`, bit 11. -/
def hfCop1x (h : BitVec 16) : Bool := h.getLsbD 11
/-- `MSA`, bit 12. -/
def hfMsa (h : BitVec 16) : Bool := h.getLsbD 12
/-- `FRE`, bit 13. -/
def hfFre (h : BitVec 16) : Bool := h.getLsbD 13
/-- `ELPA`, bit 14. -/
def hfElpa (h : BitVec 16) : Bool := h.getLsbD 14

end Sys2Proof.Machine
end

