-- ==== Sys2Proof/Machine/Operands.lean ====
section
/-! DEFINITION. The primitives over operands and entry fields: page masks, subpage select, offset,
physical-address formation, checks and permissions (00_scope.md R14, 20_memory.md R58 to R65). -/

namespace Sys2Proof.Machine

open Sys2Proof

/-- `wf_mask(M)`: `M = 2^(s+1) - 1` for some `s` with `PG <= s <= VAW-1` (R58). -/
def wfMask (c : Config) (m : Word) : Bool :=
  (List.range c.vabits).any fun s => decide (c.pg ≤ s) && m.toNat == 2 ^ (s + 1) - 1

/-- `shift_of(M)`: log2 of the page size, for a well-formed mask (R14). -/
def shiftOf (m : Word) : Nat := m.toNat.log2

/-- `sel(va, M)`: the subpage-select bit, by the mask formula of R14 (R61; log entry 12). -/
def subpageSel (va m : Word) : Bool := (va &&& (m ^^^ (m >>> 1))) != 0

/-- `off(va, M)`: the offset within the page (R62). -/
def pageOffset (va m : Word) : Word := va &&& (m >>> 1)

/-- `resize_PAW` of a natural number (R10). -/
def resizePaw (c : Config) (n : Nat) : Word := BitVec.ofNat 64 (n % 2 ^ c.paw)

/-- Physical-address formation: the frame at the page's granularity, the offset below it (R63). -/
def physAddr (c : Config) (pfn m va : Word) : Word :=
  resizePaw c (((pfn <<< c.pg) &&& ~~~(m >>> 1)) ||| pageOffset va m).toNat

/-- The subpage record an address selects in an entry (R61). -/
def Entry.subpage (e : Entry) (va : Word) : Subpage := if subpageSel va e.pageMask then e.sub1 else e.sub0

/-- The match of an entry's fields with an address and an ASID, `live` apart (R60). -/
def Entry.matches (e : Entry) (va : Word) (asid : Nat) : Bool :=
  (va &&& ~~~e.pageMask) == e.vpn && (e.g || e.asid == asid)

/-- The checks on the selected subpage, in the order of R64; `none` is success. -/
def checkSubpage (c : Config) (s : Subpage) (kind : AccessKind) : Option MissReason :=
  if s.v = false then some .invalid
  else if kind = .write ∧ s.d = false then some .modified
  else if kind = .execute ∧ s.xi = true then some .accessDenied
  else if kind = .read ∧ s.ri = true then some .accessDenied
  else if kind = .execute ∧ s.ri = true ∧ c.riBlocksExecute = true then some .accessDenied
  else none

/-- `perms[2:0]`: bit 0 read, bit 1 write, bit 2 execute (R65, 30_encoding.md R86). -/
def subpagePerms (c : Config) (s : Subpage) : BitVec 3 :=
  BitVec.ofBool (!s.xi && !(s.ri && c.riBlocksExecute)) ++ (BitVec.ofBool s.d ++ BitVec.ofBool (!s.ri))

/-- `range_overlap(V1, M1, V2, M2)` (R66). -/
def rangeOverlap (v1 m1 v2 m2 : Word) : Bool := ((v1 ^^^ v2) &&& ~~~(m1 ||| m2)) == 0

/-- `scope_overlap(G1, A1, G2, A2)` (R67). -/
def scopeOverlap (g1 : Bool) (a1 : Nat) (g2 : Bool) (a2 : Nat) : Bool := g1 || g2 || a1 == a2

/-- Two entries overlap in range and in scope (R66, R67). -/
def Entry.overlaps (e1 e2 : Entry) : Bool :=
  rangeOverlap e1.vpn e1.pageMask e2.vpn e2.pageMask && scopeOverlap e1.g e1.asid e2.g e2.asid

/-- The entry that installing the fields `f` stores: the VPN masked, `EI` clear, the rest as given
(41_tlb_maintenance.md R120). -/
def Entry.ofFields (f : EntryFields) : Entry :=
  { vpn := f.vpn &&& ~~~f.mask, pageMask := f.mask, asid := f.asid, g := f.g, ei := false
    sub0 := f.sub0, sub1 := f.sub1 }

/-- Invalidating an entry sets `EI` and nothing else (10_state.md R23). -/
def Entry.invalidate (e : Entry) : Entry := { e with ei := true }

/-- The status code of R84. -/
def Status.code : Status → BitVec 4
  | .ok                   => 0x0
  | .miss .refill         => 0x1
  | .miss .invalid        => 0x2
  | .miss .modified       => 0x3
  | .miss .accessDenied   => 0x4
  | .notFound             => 0x5
  | .err .indexOutOfRange => 0x8
  | .err .malformedFields => 0x9
  | .err .noVictim        => 0xA
  | .err .illegalCommand  => 0xB
  | .fatal                => 0xF

end Sys2Proof.Machine
end

