-- ==== Sys2Proof/Machine/Ops.lean ====
section
/-! DEFINITION. The named operations over the store and the ports: reading an entry, live entries and
hits, invalidating, installing, responding, driving the inputs, the reset input. The block takes no
exception and returns from none (60_exceptions.md R186, R187): what it has in their place is the
response, and `State.respond` is the one operation that gives it. -/

namespace Sys2Proof.Machine

open Sys2Proof

/-! ### Reading the store -/

/-- `TLB[i]` (00_scope.md R11); past the last entry, where no command reads, an invalid entry. -/
def Store.entry (st : Store) (i : Nat) : Entry := st.entries.getD i Entry.blank

/-- `live(i)` (20_memory.md R59). -/
def Store.live (st : Store) (i : Nat) : Bool := decide (i < st.liveCount) && !(st.entry i).ei

/-- `hit(i, va, asid)` (R60). -/
def Store.hit (st : Store) (va : Word) (asid : Nat) (i : Nat) : Bool := st.live i && (st.entry i).matches va asid

/-- `H = { i | 0 <= i < NTLB and hit(i, va, asid) }` in rising order (40_translate.md R103,
41_tlb_maintenance.md R123). -/
def State.hits (s : State) (va : Word) (asid : Nat) : List Nat :=
  (List.range s.cfg.ntlb).filter (s.store.hit va asid)

/-! ### Writing the store -/

/-- Every entry at once, by its index: all writes of a command land together (20_memory.md R54). -/
def Store.update (st : Store) (f : Nat → Entry → Entry) : Store := { st with entries := st.entries.mapIdx f }

/-- Live entry `j` overlaps `e`, and is not entry `t` itself: `j` is in the overlap set of R120 and R125. -/
def Store.inOverlapSet (st : Store) (t : Nat) (e : Entry) (j : Nat) : Bool :=
  j != t && st.live j && e.overlaps (st.entry j)

/-- The install step's writes, for a well-formed mask (R120). -/
def Store.install (st : Store) (t : Nat) (f : EntryFields) : Store :=
  st.update fun j e =>
    if j = t then Entry.ofFields f
    else if st.inOverlapSet t (Entry.ofFields f) j then e.invalidate else e

/-- TLBINV's siblings (R125): with `ext` and a well-formed stored mask, the live entries that overlap the
target's stored span in an overlapping scope. -/
def Store.isSibling (c : Config) (st : Store) (t : Nat) (ext : Bool) (j : Nat) : Bool :=
  let e := st.entry t
  ext && wfMask c e.pageMask && st.inOverlapSet t { e with vpn := e.vpn &&& ~~~e.pageMask } j

/-- TLBINV's writes (R125). -/
def Store.invalidate (c : Config) (st : Store) (t : Nat) (ext : Bool) : Store :=
  st.update fun j e => if j = t ∨ st.isSibling c t ext j = true then e.invalidate else e

/-- TLBFLUSH's writes: `EI` of every entry (R126). -/
def Store.flush (st : Store) : Store := st.update fun _ e => e.invalidate

/-! ### Responses (30_encoding.md R83, R84) -/

/-- A response that carries a status and nothing else. -/
def Response.bare (st : Status) : Response :=
  { status := st, pa := none, perms := none, rIndex := none, rEntry := none }

/-- `OK(pa, perms)`. -/
def Response.translated (pa : Word) (perms : BitVec 3) : Response :=
  { Response.bare .ok with pa := some pa, perms := some perms }

/-- `OK(r_index)`. -/
def Response.index (i : IndexWord) : Response := { Response.bare .ok with rIndex := some i }

/-- `OK(r_index, r.*)`. -/
def Response.entry (i : IndexWord) (e : Entry) : Response := { Response.index i with rEntry := some e }

/-- `respond` (00_scope.md R13): the response port carries the response. A Fatal response is recorded in
`fatalRecorded`, which nothing clears (60_exceptions.md R184). -/
def State.respond (s : State) (r : Response) : State :=
  { s with rsp := some r, fatalRecorded := s.fatalRecorded || decide (r.status = .fatal) }

/-- The state with another store. -/
def State.withStore (s : State) (st : Store) : State := { s with store := st }

/-- The state with other flags and mask registers. -/
def State.withFlags (s : State) (h : BitVec 16) (p : Word) : State := { s with hflags := h, pamask := p }

/-- The install step shared by TLBWI and TLBWR, with its response (R120, R121, R122): an ill-formed mask
is refused and nothing is written. -/
def State.installAt (s : State) (t : Nat) (f : EntryFields) : State :=
  if wfMask s.cfg f.mask then
    (s.withStore (s.store.install t f)).respond (Response.index (BitVec.ofNat 32 t))
  else s.respond (Response.bare (.err .malformedFields))

/-- A reserved opcode is answered Err.IllegalCommand (30_encoding.md R87). -/
def State.illegalCommand (s : State) : State := s.respond (Response.bare (.err .illegalCommand))

/-! ### The inputs (00_scope.md R15, 10_state.md R33) -/

/-- The inputs carry what the environment's move drives, and the rest of its moves remain. -/
def State.drive (s : State) (m : EnvMove) (rest : List EnvMove) : State :=
  { s with cr := m.cr, dm := m.dm, env := rest }

/-- A step with no command: no response, everything else holds (R33). -/
def State.idle (s : State) : State := { s with rsp := none }

/-! ### The reset input (70_reset_and_hazards.md R210 to R213) -/

/-- A free bit. -/
def freeBit (draw : Nat) (x : FreeField) (i : Nat) : Bool := Config.freeValue draw x i % 2 == 1

/-- A free lane of `w` bits. -/
def freeWord (w draw : Nat) (x : FreeField) (i : Nat) : Word := BitVec.ofNat 64 (lowNat w (Config.freeValue draw x i))

/-- A subpage record of free values (R211). -/
def freeSubpage (c : Config) (draw : Nat) (odd : Bool) (i : Nat) : Subpage :=
  { c := lowNat c.cw (Config.freeValue draw (.c odd) i), v := freeBit draw (.v odd) i, d := freeBit draw (.d odd) i
    xi := freeBit draw (.xi odd) i, ri := freeBit draw (.ri odd) i, pfn := freeWord c.pfnw draw (.pfn odd) i }

/-- Entry `i` after the reset input: `EI` is 1 and every other field is a free value (R211). -/
def freeEntry (c : Config) (draw i : Nat) : Entry :=
  { vpn := freeWord c.vabits draw .vpn i, pageMask := freeWord c.vabits draw .pageMask i
    asid := lowNat c.asidw (Config.freeValue draw .asid i), g := freeBit draw .g i, ei := true
    sub0 := freeSubpage c draw false i, sub1 := freeSubpage c draw true i }

/-- The reset input asserted: the store and the flags are as after reset, what R211 and R213 leave
unspecified is a free value, no command is accepted and no response is given (R210). The straps, the
inputs and the model's record of a Fatal response stay. -/
def State.applyReset (s : State) : State :=
  { s with
    store := { entries := (List.range s.cfg.ntlb).map (freeEntry s.cfg s.draws)
               liveCount := s.cfg.ntlb, strategy := s.cfg.strategy }
    hflags := BitVec.ofNat 16 (Config.freeValue s.draws .hflags 0)
    pamask := freeWord s.cfg.paw s.draws .pamask 0
    rsp := none
    draws := s.draws + 1 }

end Sys2Proof.Machine
end

