-- ==== Sys2Proof/Machine/Derive.lean ====
section
/-! DEFINITION. DERIVE (42_hflags.md R150, R168). -/

namespace Sys2Proof.Machine

open Sys2Proof

/-- DERIVE: HFLAGS and PAMASK recomputed in full from the inputs as they are now (R150). -/
def execDerive (s : State) : Host.Outcome State Fault Refusal :=
  .next ((s.withFlags (deriveHflags s.cfg s.cr s.dm) (derivePamask s.cfg s.cr)).respond (Response.bare .ok))

end Sys2Proof.Machine
end

