-- ==== Sys2Proof/Machine/Maintenance.lean ====
section
/-! DEFINITION. The six TLB maintenance commands (41_tlb_maintenance.md R120 to R126). -/

namespace Sys2Proof.Machine

open Sys2Proof

/-- TLBWI: the index is tested first, all 32 bits of it, then the fields are installed (R121, R131). -/
def execTlbwi (index : IndexWord) (f : EntryFields) (s : State) : Host.Outcome State Fault Refusal :=
  if index.toNat < s.cfg.ntlb then .next (s.installAt index.toNat f)
  else .next (s.respond (Response.bare (.err .indexOutOfRange)))

/-- The victim of TLBWR: `wired + (rand mod (NTLB - wired))` (R122). -/
def victim (c : Config) (wired rand : IndexWord) : Nat := wired.toNat + rand.toNat % (c.ntlb - wired.toNat)

/-- TLBWR: with no non-wired entry there is no victim, else the fields are installed at the victim
(R122). -/
def execTlbwr (wired rand : IndexWord) (f : EntryFields) (s : State) : Host.Outcome State Fault Refusal :=
  if wired.toNat < s.cfg.ntlb then .next (s.installAt (victim s.cfg wired rand) f)
  else .next (s.respond (Response.bare (.err .noVictim)))

/-- The response of a probe (R123). -/
def probeResponse (s : State) (va : Word) (asid : Nat) : Response :=
  match s.hits va asid with
  | []     => Response.bare .notFound
  | [i]    => Response.index (BitVec.ofNat 32 i)
  | _ :: _ => Response.bare .fatal

/-- TLBP (R123). -/
def execTlbp (va : Word) (asid : Nat) (s : State) : Host.Outcome State Fault Refusal :=
  .next (s.respond (probeResponse s va asid))

/-- TLBR: the entry as stored, live or not (R124). -/
def execTlbr (index : IndexWord) (s : State) : Host.Outcome State Fault Refusal :=
  if index.toNat < s.cfg.ntlb then .next (s.respond (Response.entry index (s.store.entry index.toNat)))
  else .next (s.respond (Response.bare (.err .indexOutOfRange)))

/-- TLBINV (R125). -/
def execTlbinv (index : IndexWord) (ext : Bool) (s : State) : Host.Outcome State Fault Refusal :=
  if index.toNat < s.cfg.ntlb then
    .next ((s.withStore (s.store.invalidate s.cfg index.toNat ext)).respond (Response.index index))
  else .next (s.respond (Response.bare (.err .indexOutOfRange)))

/-- TLBFLUSH (R126). -/
def execTlbflush (s : State) : Host.Outcome State Fault Refusal :=
  .next ((s.withStore s.store.flush).respond (Response.bare .ok))

end Sys2Proof.Machine
end

