-- ==== Sys2Proof/Machine/Translate.lean ====
section
/-! DEFINITION. XLATE under the three strategies (40_translate.md R100 to R105). -/

namespace Sys2Proof.Machine

open Sys2Proof

/-- XLATE under `Strategy == None`: the identity map (R101). -/
def xlateNone (c : Config) (va : Word) : Response := Response.translated (resizePaw c va.toNat) 0b111

/-- A window covers an address, on naturals (R102). -/
def windowCovers (va : Word) (w : Window) : Bool := decide (w.vbase ≤ va.toNat) && decide (va.toNat - w.vbase < w.vsize)

/-- XLATE under `Strategy == Fixed`: the first window in list order that covers the address (R102). -/
def xlateFixed (c : Config) (va : Word) : Response :=
  match c.fixedWindows.find? (windowCovers va) with
  | some w => Response.translated (resizePaw c (w.pbase + (va.toNat - w.vbase))) 0b111
  | none   => Response.bare (.miss c.fixedMissReason)

/-- The outcome for the one matching entry: the checks, then the address and the permissions (R103). -/
def xlateEntry (c : Config) (e : Entry) (va : Word) (kind : AccessKind) : Response :=
  match checkSubpage c (e.subpage va) kind with
  | some r => Response.bare (.miss r)
  | none   => Response.translated (physAddr c (e.subpage va).pfn e.pageMask va) (subpagePerms c (e.subpage va))

/-- XLATE under `Strategy == SoftwareRefill` (R103). -/
def xlateRefill (s : State) (va : Word) (kind : AccessKind) (asid : Nat) : Response :=
  match s.hits va asid with
  | []     => Response.bare (.miss .refill)
  | [i]    => xlateEntry s.cfg (s.store.entry i) va kind
  | _ :: _ => Response.bare .fatal

/-- The response of XLATE, which is its whole effect (R100, R104). -/
def xlateResponse (s : State) (va : Word) (kind : AccessKind) (asid : Nat) : Response :=
  if kind = .reserved then Response.bare (.err .illegalCommand)
  else match s.store.strategy with
    | .none           => xlateNone s.cfg va
    | .fixed          => xlateFixed s.cfg va
    | .softwareRefill => xlateRefill s va kind asid

/-- XLATE (R100). -/
def execXlate (va : Word) (kind : AccessKind) (asid : Nat) (s : State) : Host.Outcome State Fault Refusal :=
  .next (s.respond (xlateResponse s va kind asid))

end Sys2Proof.Machine
end

