-- ==== Sys2Proof/Machine/Dispatch.lean ====
section
/-! DEFINITION. One arm per constructor of Instr, each one direct call of its meaning. -/

namespace Sys2Proof.Machine

open Sys2Proof

def exec (i : Instr) (s : State) : Host.Outcome State Fault Refusal :=
  match i with
  | .xlate va kind asid => Sys2Proof.Machine.execXlate va kind asid s
  | .tlbwi index f => Sys2Proof.Machine.execTlbwi index f s
  | .tlbwr wired rand f => Sys2Proof.Machine.execTlbwr wired rand f s
  | .tlbp va asid => Sys2Proof.Machine.execTlbp va asid s
  | .tlbr index => Sys2Proof.Machine.execTlbr index s
  | .tlbinv index ext => Sys2Proof.Machine.execTlbinv index ext s
  | .tlbflush => Sys2Proof.Machine.execTlbflush s
  | .derive => Sys2Proof.Machine.execDerive s

end Sys2Proof.Machine
end

