-- ==== Sys2Proof/Machine/Step.lean ====
section
/-! DEFINITION. One step: the environment's next move is on the inputs, and the block executes the
command it presents, if any (10_state.md R33, 30_encoding.md R81, 70_reset_and_hazards.md R210). -/

namespace Sys2Proof.Machine

open Sys2Proof

/-- The step. With no move left, or with a move that presents no command, the state holds (R33); with the
reset input asserted no command is accepted (R210); a reserved opcode is answered (R87); any other
command is executed. -/
def step (s : State) : Host.Outcome State Fault Refusal :=
  match s.env with
  | []        => .next s.idle
  | m :: rest =>
    if m.rst then .next (s.drive m rest).applyReset
    else match m.cmd with
      | none   => .next (s.drive m rest).idle
      | some r =>
        match decode s.cfg r with
        | .error _ => .next (s.drive m rest).illegalCommand
        | .ok i    => exec i (s.drive m rest)

/-- The state in which the environment presents, on the very next step, the command whose word the opcode
table numbers `w` (its move leaves the other inputs as they are); the moves it had left follow after it
(log entries 5, 10). -/
def State.withFetchWord (s : State) (nbits w : Nat) : State :=
  { s with env := { rst := false, cr := s.cr, dm := s.dm
                    cmd := some (CmdRecord.ofTableWord s.cfg nbits w) } :: s.env }

end Sys2Proof.Machine
end

