-- ==== Sys2Proof/Machine/Gates.lean ====
section
/-! DEFINITION. The outputs: the response port's code and the two level outputs (30_encoding.md R84), and the
adjacent combinational functions of 60_exceptions.md R192 to R203 (the Interrupt Gate, the Activation Gate, the FP mode
synchronisers). The last are computed from the live inputs, hold no state, and no command is involved
(log entry 22). -/

namespace Sys2Proof.Machine

open Sys2Proof

/-- `interruptsGloballyEnabled` (R193). -/
def State.irqEnabled (s : State) : Bool :=
  s.cr.status.ie && !s.cr.status.exl && !s.cr.status.erl && !s.dm && !s.cr.tcStatus.ixmt

/-- `interruptsPending`: unsigned comparison under the vectored controller, else line by line (R194). -/
def State.irqPending (s : State) : Bool :=
  if s.cr.config3.veic then decide (s.cr.status.im.toNat < s.cr.cause.ip.toNat)
  else (s.cr.cause.ip &&& s.cr.status.im) != 0

/-- An interrupt is deliverable when both predicates are true (R192). -/
def State.irqDeliverable (s : State) : Bool := s.irqEnabled && s.irqPending

/-- `threadContextActive` (R195). -/
def State.tcActive (s : State) : Bool :=
  s.cr.mvpControl.evp && s.cr.vpeConf0.vpa && s.cr.tcStatus.a && !s.cr.tcHalt.h

/-- `virtualProcessorActive` (R196). -/
def State.vpActive (s : State) : Bool := s.cr.vp.exclSelf || !s.cr.vp.exclSibling

/-- The rounding mode a 2-bit rounding field selects (R199). -/
def RmTable.mode (t : RmTable) (rm : BitVec 2) : RoundingMode :=
  match rm.toNat with
  | 0 => t.rm0
  | 1 => t.rm1
  | 2 => t.rm2
  | _ => t.rm3

/-- Every output of the block at its pins: `rsp_valid` and `status` of the response port (absent with no
response, 30_encoding.md R84), and the level outputs of the block and of the functions beside it. -/
structure Outputs where
  rspValid       : Bool
  statusCode     : Option (BitVec 4)
  hflags         : BitVec 16
  pamask         : Word
  irqEnabled     : Bool
  irqPending     : Bool
  irqDeliverable : Bool
  tcActive       : Bool
  vpActive       : Bool
  fpRmScalar     : RoundingMode
  fpFlagsScalar  : BitVec 3
  fpRmSimd       : RoundingMode
  fpFlagsSimd    : BitVec 3
  deriving DecidableEq, Repr

/-- The outputs (R84, R193 to R196, R200, R201). -/
def State.outputs (s : State) : Outputs :=
  { rspValid := s.rsp.isSome, statusCode := s.rsp.map fun r => r.status.code
    hflags := s.hflags, pamask := s.pamask
    irqEnabled := s.irqEnabled, irqPending := s.irqPending, irqDeliverable := s.irqDeliverable
    tcActive := s.tcActive, vpActive := s.vpActive
    fpRmScalar := RmTable.mode s.cfg.rmTable s.cr.fcr31.rm, fpFlagsScalar := s.cr.fcr31.flags
    fpRmSimd := RmTable.mode s.cfg.rmTable s.cr.msacsr.rm, fpFlagsSimd := s.cr.msacsr.flags }

end Sys2Proof.Machine
end

