-- ==== Sys2Proof/Safety.lean ====
section
/-! DEFINITION. The invariants of the store (10_state.md R22, R26, R27, R34), the well-formedness of a
state, the states the reset input can leave, and what a safe run is (60_exceptions.md R184). -/

namespace Sys2Proof.Machine

open Sys2Proof

/-- An entry's fields fit their widths (10_state.md R21, R24). -/
def Entry.fits (c : Config) (e : Entry) : Bool :=
  decide (e.vpn.toNat < 2 ^ c.vabits) && decide (e.pageMask.toNat < 2 ^ c.vabits)
    && decide (e.asid < 2 ^ c.asidw) && e.sub0.wellFormed c && e.sub1.wellFormed c

/-- INV-VPN for one entry: unless EntryInvalid, its mask is well formed and its VPN is clear under it
(R22). -/
def Entry.vpnOk (c : Config) (e : Entry) : Bool := e.ei || (wfMask c e.pageMask && (e.vpn &&& e.pageMask) == 0)

/-- The storage has the shape the configuration gives it: `NTLB` entries, every field within its width,
`LiveCount = NTLB`, `Strategy` the strap, PAMASK within PAW bits (R20, R21, R26, R27, R29). -/
structure State.Shape (s : State) : Prop where
  cfgWf     : s.cfg.wf = true
  length    : s.store.entries.length = s.cfg.ntlb
  fits      : ∀ i < s.cfg.ntlb, (s.store.entry i).fits s.cfg = true
  liveCount : s.store.liveCount = s.cfg.ntlb
  strategy  : s.store.strategy = s.cfg.strategy
  pamask    : s.pamask.toNat < 2 ^ s.cfg.paw

/-- INV-VPN (R22). -/
def State.InvVpn (s : State) : Prop := ∀ i < s.cfg.ntlb, (s.store.entry i).vpnOk s.cfg = true

/-- INV-OVERLAP: no two distinct live entries overlap in range and in scope (R34). -/
def State.InvOverlap (s : State) : Prop :=
  ∀ i < s.cfg.ntlb, ∀ j < s.cfg.ntlb, i ≠ j → s.store.live i = true → s.store.live j = true →
    (s.store.entry i).overlaps (s.store.entry j) = false

/-- The invariant every step keeps. -/
structure State.Inv (s : State) : Prop where
  shape   : s.Shape
  vpn     : s.InvVpn
  overlap : s.InvOverlap

/-- The states the reset input can leave under a configuration: what R211 and R212 fix, with every other
element arbitrary within its width (R211, R213). -/
structure State.IsReset (s : State) : Prop where
  shape   : s.Shape
  invalid : ∀ i < s.cfg.ntlb, (s.store.entry i).ei = true

/-- A state of a safe run carries no record of a Fatal.InternalInconsistency (R184). -/
def State.Safe (s : State) : Prop := s.fatalRecorded = false

/-! ### Words of the statements -/

/-- A response was given, with this status. -/
def State.answered (s : State) (st : Status) : Prop := ∃ r, s.rsp = some r ∧ r.status = st

/-- `M == 2^(s+1) - 1` with `PG <= s <= VAW-1`: the page of an entry with mask `m` has `2^s` bytes
(20_memory.md R58). -/
def MaskOfShift (c : Config) (m : Word) (s : Nat) : Prop :=
  c.pg ≤ s ∧ s < c.vabits ∧ m.toNat = 2 ^ (s + 1) - 1

/-- Entry `i` and no other matches (20_memory.md R60). -/
def State.UniqueHit (s : State) (va : Word) (asid i : Nat) : Prop :=
  i < s.cfg.ntlb ∧ s.store.hit va asid i = true ∧ ∀ j < s.cfg.ntlb, s.store.hit va asid j = true → j = i

/-- No entry matches. -/
def State.NoHit (s : State) (va : Word) (asid : Nat) : Prop := ∀ i < s.cfg.ntlb, s.store.hit va asid i = false

/-- The record lets an access of this kind through (20_memory.md R64, step 6). -/
def Allows (c : Config) (r : Subpage) (kind : AccessKind) : Prop :=
  r.v = true ∧ match kind with
    | .read     => r.ri = false
    | .write    => r.d = true
    | .execute  => r.xi = false ∧ ¬(r.ri = true ∧ c.riBlocksExecute = true)
    | .reserved => False

/-- Entry `j` is live and overlaps the span of `v` under the mask `m` in a scope overlapping `(g, a)`
(20_memory.md R59, R66, R67, written out). -/
def Store.Overlapping (st : Store) (v m : Word) (g : Bool) (a j : Nat) : Prop :=
  j < st.liveCount ∧ (st.entry j).ei = false
    ∧ (v ^^^ (st.entry j).vpn) &&& ~~~(m ||| (st.entry j).pageMask) = 0
    ∧ (g = true ∨ (st.entry j).g = true ∨ a = (st.entry j).asid)

/-- The store has the same number of entries, the same live count and the same strategy. -/
def Store.SameFrame (st st' : Store) : Prop :=
  st'.entries.length = st.entries.length ∧ st'.liveCount = st.liveCount ∧ st'.strategy = st.strategy

/-- `st'` is `st` after the fields `f` were installed at index `t` of `n` (41_tlb_maintenance.md R120). -/
def Store.Installed (n : Nat) (st st' : Store) (t : Nat) (f : EntryFields) : Prop :=
  st.SameFrame st'
    ∧ st'.entry t = { vpn := f.vpn &&& ~~~f.mask, pageMask := f.mask, asid := f.asid, g := f.g, ei := false
                      sub0 := f.sub0, sub1 := f.sub1 }
    ∧ ∀ j < n, j ≠ t →
        (st.Overlapping (f.vpn &&& ~~~f.mask) f.mask f.g f.asid j → st'.entry j = { st.entry j with ei := true })
        ∧ (¬st.Overlapping (f.vpn &&& ~~~f.mask) f.mask f.g f.asid j → st'.entry j = st.entry j)

/-- The command is one of the two writes. -/
def isWrite : Instr → Bool
  | .tlbwi _ _   => true
  | .tlbwr _ _ _ => true
  | .xlate _ _ _ => false
  | .tlbp _ _    => false
  | .tlbr _      => false
  | .tlbinv _ _  => false
  | .tlbflush    => false
  | .derive      => false

/-- The commands run one after the other lead from the first state to the second, and no write among them
answers OK. -/
def RunWithoutWrite : List Instr → State → State → Prop
  | [],      s, t => s = t
  | i :: is, s, t =>
    ∃ u, exec i s = .next u ∧ (isWrite i = true → ¬u.answered .ok) ∧ RunWithoutWrite is u t

end Sys2Proof.Machine
end

