-- ==== Sys2Proof/Certificates/Slice0/Obligations.lean ====
section
/-! DEFINITION. The statements for the provers. Each docstring names the rule of spec/ it formalises; where
a clause is the model's own choice it names the log entry. -/

open Sys2Proof Sys2Proof.Machine

/-! ### Encoding (30_encoding.md R80 to R92) -/

/-- Records written out bit by bit from R80, R82 and R92 under the widths of the spec's examples decode to
the commands they stand for, one for every family; a sanity statement. -/
def Obligations.WrittenOutRecordsDecode : Prop :=
  decodeWord Config.vectors 0x401006af105000000000000000000000000000000000000000000000000000000000000
      = .ok (.xlate 0x00401ABC .write 5)
    ∧ decodeWord Config.vectors 0x800000000000000000000000000000000000020055e00000fff829e00091a2ba0012346
      = .ok (.tlbwi 0 { vpn := 0x00400ABC, mask := 0x1FFF, asid := 5, g := false
                        sub0 := { c := 3, v := true, d := true, xi := false, ri := false, pfn := 0x12345 }
                        sub1 := { c := 3, v := true, d := false, xi := true, ri := false, pfn := 0x12346 } })
    ∧ decodeWord Config.vectors 0x180000000000ffffffff8000000000000000000000000000000000000000000000000000
      = .ok (.tlbinv 0xFFFFFFFF true)
    ∧ decodeWord Config.vectors 0x200000000000000000000000000000000000000000000000000000000000000000000000
      = .ok .derive

/-- R82: `cmd_op` selects the command, all four bits of it; every other value names none (R87). -/
def Obligations.OpcodeSelectsTheCommand : Prop :=
  ∀ (c : Config) (r : CmdRecord),
    (r.op = 0x1 → ∃ va kind asid, decode c r = .ok (.xlate va kind asid))
    ∧ (r.op = 0x2 → ∃ index f, decode c r = .ok (.tlbwi index f))
    ∧ (r.op = 0x3 → ∃ wired rand f, decode c r = .ok (.tlbwr wired rand f))
    ∧ (r.op = 0x4 → ∃ va asid, decode c r = .ok (.tlbp va asid))
    ∧ (r.op = 0x5 → ∃ index, decode c r = .ok (.tlbr index))
    ∧ (r.op = 0x6 → ∃ index ext, decode c r = .ok (.tlbinv index ext))
    ∧ (r.op = 0x7 → decode c r = .ok .tlbflush)
    ∧ (r.op = 0x8 → decode c r = .ok .derive)
    ∧ (r.op = 0x0 ∨ 0x9 ≤ r.op.toNat → decode c r = .error (.reservedOpcode r.op))

/-- R83: a command ignores every operand the table of R83 does not give it, so two records that agree on
`cmd_op` and on the operands that command reads name the same command. -/
def Obligations.IgnoredSignalsDoNotMatter : Prop :=
  ∀ (c : Config) (r q : CmdRecord), r.op = q.op →
    (r.op = 0x1 → r.va = q.va ∧ r.kind = q.kind ∧ r.asid = q.asid) →
    (r.op = 0x2 → r.index = q.index ∧ r.f = q.f) →
    (r.op = 0x3 → r.wired = q.wired ∧ r.rand = q.rand ∧ r.f = q.f) →
    (r.op = 0x4 → r.va = q.va ∧ r.asid = q.asid) →
    (r.op = 0x5 → r.index = q.index) →
    (r.op = 0x6 → r.index = q.index ∧ r.ext = q.ext) →
    decode c r = decode c q

/-- R80, R92: whatever the bits of the packed record, the command decoded has every operand at the width
of its signal. -/
def Obligations.DecodedCommandsAreWellFormed : Prop :=
  ∀ (c : Config) (n : Nat) (i : Instr), decodeWord c n = .ok i → i.wellFormed c = true

/-- R80, R82, R92: for every legal configuration and every command whose operands fit their signals, the
packed record of the command has the record's width and decodes to the command. -/
def Obligations.DecodeOfEncodeIsTheCommand : Prop :=
  ∀ (c : Config) (i : Instr), c.wf = true → i.wellFormed c = true →
    encodeWord c i < 2 ^ recordBits c ∧ decodeWord c (encodeWord c i) = .ok i

/-! ### The step (10_state.md R33, 70_reset_and_hazards.md R210) -/

/-- R33, R81: when the environment's move presents a record that decodes to a command, with the reset input
released, the step is that command's execution in the state with the move's inputs driven. -/
def Obligations.StepRunsTheDecodedCommand : Prop :=
  ∀ (s : State) (m : EnvMove) (rest : List EnvMove) (r : CmdRecord) (i : Instr),
    s.env = m :: rest → m.rst = false → m.cmd = some r → decode s.cfg r = .ok i →
    step s = exec i { s with cr := m.cr, dm := m.dm, env := rest }

/-- R33: "When no command is presented, the state holds." The response port then presents nothing and the
inputs follow the environment (log entries 5, 8). -/
def Obligations.StateHoldsWithoutCommand : Prop :=
  ∀ s : State,
    (s.env = [] → step s = .next { s with rsp := none })
    ∧ ∀ (m : EnvMove) (rest : List EnvMove), s.env = m :: rest → m.rst = false → m.cmd = none →
        step s = .next { s with rsp := none, cr := m.cr, dm := m.dm, env := rest }

/-- R87: a reserved `cmd_op` changes no state and is answered Err.IllegalCommand. -/
def Obligations.ReservedOpcodeIsAnswered : Prop :=
  ∀ (s : State) (m : EnvMove) (rest : List EnvMove) (r : CmdRecord),
    s.env = m :: rest → m.rst = false → m.cmd = some r → (r.op = 0x0 ∨ 0x9 ≤ r.op.toNat) →
    step s = .next { s with
      cr := m.cr, dm := m.dm, env := rest
      rsp := some { status := .err .illegalCommand, pa := none, perms := none, rIndex := none, rEntry := none } }

/-- R210 to R213: the reset input leaves every entry invalid, the live count and the strategy as R212 says,
and accepts no command; what the spec leaves unspecified is arbitrary within its width (the free values of
log entry 6, which also names what the input leaves alone). -/
def Obligations.ResetInputLeavesAResetState : Prop :=
  ∀ (s : State) (m : EnvMove) (rest : List EnvMove),
    s.cfg.wf = true → s.env = m :: rest → m.rst = true →
    ∃ t, step s = .next t ∧ t.IsReset ∧ t.cfg = s.cfg ∧ t.rsp = none ∧ t.cr = m.cr ∧ t.dm = m.dm
      ∧ t.env = rest ∧ t.fatalRecorded = s.fatalRecorded

/-- R211, R212 and log entries 1 to 4: the configuration `State.reset` carries is legal, and under every
legal configuration the model's state right after reset is one the spec allows. -/
def Obligations.ResetStateIsAllowed : Prop :=
  Config.vectors.wf = true ∧ ∀ c : Config, c.wf = true → (State.resetOf c).IsReset ∧ (State.resetOf c).Safe

/-- R216: after reset the TLB is empty: under SoftwareRefill every XLATE answers Miss.Refill, and every
TLBP answers NotFound, in every state the spec allows after reset. -/
def Obligations.EmptyTlbMissesEverything : Prop :=
  ∀ (s : State) (va : Word) (kind : AccessKind) (asid : Nat), s.IsReset →
    (s.store.strategy = .softwareRefill → kind ≠ .reserved →
      exec (.xlate va kind asid) s = .next { s with rsp := some (Response.bare (.miss .refill)) })
    ∧ exec (.tlbp va asid) s = .next { s with rsp := some (Response.bare .notFound) }

/-- R13, R203: no step stops: whatever the state, the block answers and goes on. -/
def Obligations.EveryStepGivesANextState : Prop :=
  (∀ s : State, ∃ t, step s = .next t) ∧ ∀ (i : Instr) (s : State), ∃ t, exec i s = .next t

/-! ### Invariants (10_state.md R22, R34, R35, 41_tlb_maintenance.md R127) -/

/-- R22, R34: both invariants of the store, and the shape of the storage, hold in every state the spec
allows after reset, the model's own among them. -/
def Obligations.ResetMeetsTheInvariant : Prop :=
  (∀ s : State, s.IsReset → s.Inv) ∧ State.reset.Inv

/-- R127: every step, the reset input and reserved opcodes included, keeps INV-VPN, INV-OVERLAP and the
shape of the storage, from every state that has them. -/
def Obligations.EveryStepKeepsTheInvariant : Prop :=
  ∀ s t : State, s.Inv → step s = .next t → t.Inv

/-- R35: in every state of the invariant at most one entry matches an address under an ASID. -/
def Obligations.LookupsAreUnique : Prop :=
  ∀ (s : State) (va : Word) (asid i j : Nat), s.Inv → i < s.cfg.ntlb → j < s.cfg.ntlb →
    s.store.hit va asid i = true → s.store.hit va asid j = true → i = j

/-- R68, R184: Fatal.InternalInconsistency is unreachable: from a state of the invariant no step answers it, and
none adds a record of it (the record is the model's, log entry 7). -/
def Obligations.NoStepRecordsAFatal : Prop :=
  ∀ s t : State, s.Inv → s.Safe → step s = .next t → ¬t.answered .fatal ∧ t.Safe

/-! ### The lookup (20_memory.md R58 to R68) -/

/-- R58, R60: in a state of the invariant an entry matches exactly the addresses of its pair span
`[VPN, VPN + PageMask]`, under every ASID when global and under its own otherwise, unless EntryInvalid. -/
def Obligations.EntriesMatchTheirPairSpan : Prop :=
  ∀ (s : State) (va : Word) (asid i : Nat), s.Inv → i < s.cfg.ntlb →
    (s.store.hit va asid i = true ↔
      (s.store.entry i).ei = false
      ∧ (s.store.entry i).vpn.toNat ≤ va.toNat
      ∧ va.toNat ≤ (s.store.entry i).vpn.toNat + (s.store.entry i).pageMask.toNat
      ∧ ((s.store.entry i).g = true ∨ (s.store.entry i).asid = asid))

/-- R66: two pair spans with well-formed masks and masked VPNs overlap exactly when some address lies in
both. -/
def Obligations.RangeOverlapMeansACommonAddress : Prop :=
  ∀ (c : Config) (v1 m1 v2 m2 : Word) (s1 s2 : Nat),
    MaskOfShift c m1 s1 → MaskOfShift c m2 s2 → v1 &&& m1 = 0 → v2 &&& m2 = 0 →
    (rangeOverlap v1 m1 v2 m2 = true ↔
      ∃ x : Word, v1.toNat ≤ x.toNat ∧ x.toNat ≤ v1.toNat + m1.toNat
        ∧ v2.toNat ≤ x.toNat ∧ x.toNat ≤ v2.toNat + m2.toNat)

/-- R67: two entries' scopes overlap when some ASID lets both match. -/
def Obligations.ScopeOverlapMeansACommonAsid : Prop :=
  ∀ (g1 : Bool) (a1 : Nat) (g2 : Bool) (a2 : Nat),
    scopeOverlap g1 a1 g2 a2 = true ↔ ∃ a : Nat, (g1 = true ∨ a1 = a) ∧ (g2 = true ∨ a2 = a)

/-! ### XLATE (40_translate.md R100 to R105) -/

/-- R88: XLATE with `kind == 3` changes no state and is answered Err.IllegalCommand, under every
strategy. -/
def Obligations.ReservedKindIsRefused : Prop :=
  ∀ (s : State) (va : Word) (asid : Nat),
    exec (.xlate va .reserved asid) s = .next { s with
      rsp := some { status := .err .illegalCommand, pa := none, perms := none, rIndex := none, rEntry := none } }

/-- R101: under `Strategy == None` XLATE is the identity map and always succeeds, whatever the kind and the
ASID. -/
def Obligations.IdentityTranslation : Prop :=
  ∀ (s : State) (va : Word) (kind : AccessKind) (asid : Nat),
    s.store.strategy = .none → kind ≠ .reserved →
    exec (.xlate va kind asid) s = .next { s with
      rsp := some { status := .ok, pa := some (BitVec.ofNat 64 (va.toNat % 2 ^ s.cfg.paw)), perms := some 0b111
                    rIndex := none, rEntry := none } }

/-- R102: under `Strategy == Fixed` the first window in list order that covers the address gives the
physical address with all permissions, and outside every window the answer is the configured miss. -/
def Obligations.FixedWindowTranslation : Prop :=
  ∀ (s : State) (va : Word) (kind : AccessKind) (asid : Nat),
    s.store.strategy = .fixed → kind ≠ .reserved →
    (∀ (before : List Window) (w : Window) (after : List Window),
      s.cfg.fixedWindows = before ++ w :: after →
      (∀ u ∈ before, ¬(u.vbase ≤ va.toNat ∧ va.toNat - u.vbase < u.vsize)) →
      w.vbase ≤ va.toNat → va.toNat - w.vbase < w.vsize →
      exec (.xlate va kind asid) s = .next { s with
        rsp := some { status := .ok
                      pa := some (BitVec.ofNat 64 ((w.pbase + (va.toNat - w.vbase)) % 2 ^ s.cfg.paw))
                      perms := some 0b111, rIndex := none, rEntry := none } })
    ∧ ((∀ u ∈ s.cfg.fixedWindows, ¬(u.vbase ≤ va.toNat ∧ va.toNat - u.vbase < u.vsize)) →
      exec (.xlate va kind asid) s = .next { s with
        rsp := some (Response.bare (.miss s.cfg.fixedMissReason)) })

/-- R103, R180: under SoftwareRefill, no match is Miss.Refill for every kind of access. -/
def Obligations.NoMatchIsARefillMiss : Prop :=
  ∀ (s : State) (va : Word) (kind : AccessKind) (asid : Nat),
    s.store.strategy = .softwareRefill → kind ≠ .reserved → s.NoHit va asid →
    exec (.xlate va kind asid) s = .next { s with rsp := some (Response.bare (.miss .refill)) }

/-- R68, R184: two matches end a lookup or a probe with Fatal.InternalInconsistency and no address; no
state of the block is written (that `fatalRecorded` is set is the model's record, log entry 7). -/
def Obligations.DuplicateMatchIsFatal : Prop :=
  ∀ (s : State) (va : Word) (kind : AccessKind) (asid i j : Nat),
    i < s.cfg.ntlb → j < s.cfg.ntlb → i ≠ j →
    s.store.hit va asid i = true → s.store.hit va asid j = true →
    exec (.tlbp va asid) s = .next { s with rsp := some (Response.bare .fatal), fatalRecorded := true }
    ∧ (s.store.strategy = .softwareRefill → kind ≠ .reserved →
      exec (.xlate va kind asid) s = .next { s with rsp := some (Response.bare .fatal), fatalRecorded := true })

/-- R61, R64: with one match, the record that bit `s` of the address selects decides: Invalid first, then
Modified for a Write, then AccessDenied for the inhibit bits. -/
def Obligations.ChecksDecideInOrder : Prop :=
  ∀ (s : State) (va : Word) (asid i k : Nat) (r : Subpage),
    s.store.strategy = .softwareRefill → s.UniqueHit va asid i →
    MaskOfShift s.cfg (s.store.entry i).pageMask k →
    r = (if va.getLsbD k then (s.store.entry i).sub1 else (s.store.entry i).sub0) →
    (∀ kind : AccessKind, kind ≠ .reserved → r.v = false →
      exec (.xlate va kind asid) s = .next { s with rsp := some (Response.bare (.miss .invalid)) })
    ∧ (r.v = true → r.d = false →
      exec (.xlate va .write asid) s = .next { s with rsp := some (Response.bare (.miss .modified)) })
    ∧ (r.v = true → r.xi = true →
      exec (.xlate va .execute asid) s = .next { s with rsp := some (Response.bare (.miss .accessDenied)) })
    ∧ (r.v = true → r.ri = true →
      exec (.xlate va .read asid) s = .next { s with rsp := some (Response.bare (.miss .accessDenied)) })
    ∧ (r.v = true → r.ri = true → s.cfg.riBlocksExecute = true →
      exec (.xlate va .execute asid) s = .next { s with rsp := some (Response.bare (.miss .accessDenied)) })

/-- R61, R63, R65: with one match and a record that lets the access through, XLATE answers OK with the
frame number at the page's granularity concatenated with the offset, cut to PAW bits, and with the
permissions of the record. -/
def Obligations.TranslationConcatenatesFrameAndOffset : Prop :=
  ∀ (s : State) (va : Word) (kind : AccessKind) (asid i k : Nat) (r : Subpage),
    s.Shape → s.store.strategy = .softwareRefill → s.UniqueHit va asid i →
    MaskOfShift s.cfg (s.store.entry i).pageMask k →
    r = (if va.getLsbD k then (s.store.entry i).sub1 else (s.store.entry i).sub0) →
    Allows s.cfg r kind →
    ∃ (pa : Word) (perms : BitVec 3),
      exec (.xlate va kind asid) s = .next { s with
        rsp := some { status := .ok, pa := some pa, perms := some perms, rIndex := none, rEntry := none } }
      ∧ pa.toNat = (r.pfn.toNat * 2 ^ s.cfg.pg / 2 ^ k * 2 ^ k + va.toNat % 2 ^ k) % 2 ^ s.cfg.paw
      ∧ perms.getLsbD 0 = !r.ri ∧ perms.getLsbD 1 = r.d
      ∧ perms.getLsbD 2 = (!r.xi && !(r.ri && s.cfg.riBlocksExecute))

/-- R65: the permissions of a success say, one bit per kind, which kinds of access to the same address would
succeed with the store unchanged, under every strategy. -/
def Obligations.PermissionsSayWhichAccessesSucceed : Prop :=
  ∀ (s t : State) (va : Word) (kind : AccessKind) (asid : Nat) (r : Response) (p : BitVec 3),
    exec (.xlate va kind asid) s = .next t → t.rsp = some r → r.perms = some p →
    (p.getLsbD 0 = true ↔ ∃ u, exec (.xlate va .read asid) s = .next u ∧ u.answered .ok)
    ∧ (p.getLsbD 1 = true ↔ ∃ u, exec (.xlate va .write asid) s = .next u ∧ u.answered .ok)
    ∧ (p.getLsbD 2 = true ↔ ∃ u, exec (.xlate va .execute asid) s = .next u ∧ u.answered .ok)

/-- R57: translation through an entry keeps the low PG bits of the address, at least. -/
def Obligations.TranslationKeepsThePageOffset : Prop :=
  ∀ (s t : State) (va : Word) (kind : AccessKind) (asid : Nat) (r : Response) (pa : Word),
    s.Inv → s.store.strategy = .softwareRefill →
    exec (.xlate va kind asid) s = .next t → t.rsp = some r → r.pa = some pa →
    pa.toNat % 2 ^ s.cfg.pg = va.toNat % 2 ^ s.cfg.pg

/-- R55, R104: XLATE, TLBP and TLBR write no state, and repeating one in the state it left gives the
identical answer. (`rsp` is the response port; `fatalRecorded` is the model's record, log entry 7.) -/
def Obligations.LookupsArePure : Prop :=
  ∀ (i : Instr) (s t : State),
    ((∃ va kind asid, i = .xlate va kind asid) ∨ (∃ va asid, i = .tlbp va asid) ∨ (∃ index, i = .tlbr index)) →
    exec i s = .next t →
    t = { s with rsp := t.rsp, fatalRecorded := t.fatalRecorded }
    ∧ ∃ u, exec i t = .next u ∧ u.rsp = t.rsp

/-- R25, R76, R191: what a TLB command answers and writes depends on the configuration and the store alone:
not on HFLAGS, PAMASK, the control-register inputs or Debug-Mode, so not on privilege. -/
def Obligations.TlbCommandsIgnoreFlagsAndControl : Prop :=
  ∀ (i : Instr) (s s' t t' : State), i ≠ .derive → s.cfg = s'.cfg → s.store = s'.store →
    exec i s = .next t → exec i s' = .next t' → t.rsp = t'.rsp ∧ t.store = t'.store

/-! ### Maintenance (41_tlb_maintenance.md R120 to R131) -/

/-- R120, R121: with the index in range and a well-formed mask, TLBWI installs the fields at the index and
sets EntryInvalid of every other live entry that overlaps in an overlapping scope, and nothing else. -/
def Obligations.WriteIndexedInstalls : Prop :=
  ∀ (s : State) (index : IndexWord) (f : EntryFields) (k : Nat),
    s.Shape → index.toNat < s.cfg.ntlb → MaskOfShift s.cfg f.mask k →
    ∃ st : Store, exec (.tlbwi index f) s = .next { s with store := st, rsp := some (Response.index index) }
      ∧ Store.Installed s.cfg.ntlb s.store st index.toNat f

/-- R120, R122: with a non-wired entry and a well-formed mask, TLBWR does the same at the victim
`wired + (rand mod (NTLB - wired))`, which is a non-wired entry, and answers its index. -/
def Obligations.WriteRandomInstallsAtTheVictim : Prop :=
  ∀ (s : State) (wired rand : IndexWord) (f : EntryFields) (k : Nat),
    s.Shape → wired.toNat < s.cfg.ntlb → MaskOfShift s.cfg f.mask k →
    ∃ (st : Store) (v : IndexWord),
      exec (.tlbwr wired rand f) s = .next { s with store := st, rsp := some (Response.index v) }
      ∧ v.toNat = wired.toNat + rand.toNat % (s.cfg.ntlb - wired.toNat)
      ∧ wired.toNat ≤ v.toNat ∧ v.toNat < s.cfg.ntlb
      ∧ Store.Installed s.cfg.ntlb s.store st v.toNat f

/-- R120, R183: a mask of no page size is refused by both writes with Err.MalformedFields and nothing is
written. -/
def Obligations.IllFormedMaskIsRefused : Prop :=
  ∀ (s : State) (f : EntryFields), (¬∃ k, MaskOfShift s.cfg f.mask k) →
    (∀ index : IndexWord, index.toNat < s.cfg.ntlb →
      exec (.tlbwi index f) s = .next { s with rsp := some (Response.bare (.err .malformedFields)) })
    ∧ ∀ wired rand : IndexWord, wired.toNat < s.cfg.ntlb →
      exec (.tlbwr wired rand f) s = .next { s with rsp := some (Response.bare (.err .malformedFields)) }

/-- R131: for TLBWI, TLBR and TLBINV an index of NTLB or more gives Err.IndexOutOfRange and no state
change; the fields of a TLBWI are then not looked at. -/
def Obligations.OutOfRangeIndexIsSurfaced : Prop :=
  ∀ (s : State) (index : IndexWord), s.cfg.ntlb ≤ index.toNat →
    (∀ f : EntryFields, exec (.tlbwi index f) s
      = .next { s with rsp := some (Response.bare (.err .indexOutOfRange)) })
    ∧ exec (.tlbr index) s = .next { s with rsp := some (Response.bare (.err .indexOutOfRange)) }
    ∧ ∀ ext : Bool, exec (.tlbinv index ext) s
      = .next { s with rsp := some (Response.bare (.err .indexOutOfRange)) }

/-- R122, R183: with no non-wired entry TLBWR answers Err.NoVictim, whatever the draw and the fields, and
writes nothing. -/
def Obligations.NoVictimWhenEveryEntryIsWired : Prop :=
  ∀ (s : State) (wired rand : IndexWord) (f : EntryFields), s.cfg.ntlb ≤ wired.toNat →
    exec (.tlbwr wired rand f) s = .next { s with rsp := some (Response.bare (.err .noVictim)) }

/-- R130: a TLBWR never writes any field, EntryInvalid excepted, of an entry with index below `wired`. -/
def Obligations.WiredEntriesAreNotVictims : Prop :=
  ∀ (s t : State) (wired rand : IndexWord) (f : EntryFields) (i : Nat),
    exec (.tlbwr wired rand f) s = .next t → i < wired.toNat →
    t.store.entry i = { s.store.entry i with ei := (t.store.entry i).ei }

/-- R123: TLBP answers the unique matching index or NotFound, under every strategy, and writes no state
(two matches are the statement DuplicateMatchIsFatal). -/
def Obligations.ProbeFindsTheMatch : Prop :=
  ∀ (s : State) (va : Word) (asid : Nat),
    (s.NoHit va asid → exec (.tlbp va asid) s = .next { s with rsp := some (Response.bare .notFound) })
    ∧ ∀ i : IndexWord, s.UniqueHit va asid i.toNat →
      exec (.tlbp va asid) s = .next { s with
        rsp := some { status := .ok, pa := none, perms := none, rIndex := some i, rEntry := none } }

/-- R124: TLBR answers the entry as stored, whether or not it is live, and writes no state. -/
def Obligations.ReadReturnsTheEntry : Prop :=
  ∀ (s : State) (index : IndexWord), index.toNat < s.cfg.ntlb →
    exec (.tlbr index) s = .next { s with
      rsp := some { status := .ok, pa := none, perms := none, rIndex := some index
                    rEntry := some (s.store.entry index.toNat) } }

/-- R125: TLBINV sets EntryInvalid of the entry and, with `ext` and a well-formed stored mask, of the other
live entries that overlap its stored span in an overlapping scope; nothing else changes. What the siblings are is
the spec's own reading (D13, U14; log entry 20), and it bites only when the entry is already invalid; without `ext`
no clause rests on it. -/
def Obligations.InvalidateMarksTheEntry : Prop :=
  ∀ (s : State) (index : IndexWord) (ext : Bool) (e : Entry),
    s.Shape → index.toNat < s.cfg.ntlb → e = s.store.entry index.toNat →
    ∃ st : Store, exec (.tlbinv index ext) s = .next { s with store := st, rsp := some (Response.index index) }
      ∧ s.store.SameFrame st
      ∧ st.entry index.toNat = { e with ei := true }
      ∧ ∀ j < s.cfg.ntlb, j ≠ index.toNat →
        (ext = true → (∃ k, MaskOfShift s.cfg e.pageMask k) →
          s.store.Overlapping (e.vpn &&& ~~~e.pageMask) e.pageMask e.g e.asid j →
          st.entry j = { s.store.entry j with ei := true })
        ∧ (¬(ext = true ∧ (∃ k, MaskOfShift s.cfg e.pageMask k)
            ∧ s.store.Overlapping (e.vpn &&& ~~~e.pageMask) e.pageMask e.g e.asid j) →
          st.entry j = s.store.entry j)

/-- R126: TLBFLUSH sets EntryInvalid of every entry, changes no other field, and answers OK. -/
def Obligations.FlushMarksEveryEntry : Prop :=
  ∀ s : State, s.Shape →
    ∃ st : Store, exec .tlbflush s = .next { s with store := st, rsp := some (Response.bare .ok) }
      ∧ s.store.SameFrame st ∧ ∀ i < s.cfg.ntlb, st.entry i = { s.store.entry i with ei := true }

/-- R23: invalidating changes no field of an entry but EntryInvalid, and TLBINV and TLBFLUSH never clear
it. -/
def Obligations.InvalidationChangesOnlyEntryInvalid : Prop :=
  ∀ (i : Instr) (s t : State) (j : Nat), ((∃ index ext, i = .tlbinv index ext) ∨ i = .tlbflush) →
    exec i s = .next t →
    t.store.entry j = { s.store.entry j with ei := (t.store.entry j).ei }
    ∧ ((s.store.entry j).ei = true → (t.store.entry j).ei = true)

/-- R128: a TLBP issued right after a write that answered OK, for any address of the written span, under the
written ASID or under any when the entry is global, answers the index written. -/
def Obligations.WriteThenProbeFindsTheIndex : Prop :=
  ∀ (s t : State) (i : Instr) (f : EntryFields) (x : IndexWord) (r : Response) (va : Word) (asid : Nat),
    s.Inv → (i = .tlbwi x f ∨ ∃ wired rand, i = .tlbwr wired rand f) →
    exec i s = .next t → t.rsp = some r → r.status = .ok → r.rIndex = some x →
    va &&& ~~~f.mask = f.vpn &&& ~~~f.mask → (f.g = true ∨ asid = f.asid) →
    exec (.tlbp va asid) t = .next { t with rsp := some (Response.index x) }

/-- R129: after TLBFLUSH, and until the next TLBWI or TLBWR that answers OK, every TLBP answers NotFound. -/
def Obligations.FlushThenProbeFindsNothing : Prop :=
  ∀ (s t u : State) (is : List Instr) (va : Word) (asid : Nat),
    exec .tlbflush s = .next t → RunWithoutWrite is t u →
    exec (.tlbp va asid) u = .next { u with rsp := some (Response.bare .notFound) }

/-! ### All commands -/

/-- R54, R189: a command that answers any status but OK leaves every state element as it was. (`rsp` is the
response port; `fatalRecorded` is the model's record, log entry 7.) -/
def Obligations.FailedCommandsChangeNothing : Prop :=
  ∀ (i : Instr) (s t : State) (r : Response), exec i s = .next t → t.rsp = some r → r.status ≠ .ok →
    t = { s with rsp := t.rsp, fatalRecorded := t.fatalRecorded }

/-- R25: which command touches what. No command changes the straps, the inputs or the model's own fields but
the response and the fatal record; only DERIVE writes HFLAGS and PAMASK; only the two writes, TLBINV and
TLBFLUSH write the store, and they keep its size, live count and strategy (R26, R27, R77). -/
def Obligations.EveryCommandKeepsItsFrame : Prop :=
  ∀ (i : Instr) (s t : State), exec i s = .next t →
    t.cfg = s.cfg ∧ t.cr = s.cr ∧ t.dm = s.dm ∧ t.env = s.env ∧ t.draws = s.draws
    ∧ (i ≠ .derive → t.hflags = s.hflags ∧ t.pamask = s.pamask)
    ∧ s.store.SameFrame t.store
    ∧ (isWrite i = false → i ≠ .tlbflush → (∀ index ext, i ≠ .tlbinv index ext) → t.store = s.store)

/-- R55: repeating a command with the same operands and unchanged inputs, right after it, changes nothing
more and answers the same. -/
def Obligations.RepeatingACommandChangesNothing : Prop :=
  ∀ (i : Instr) (s t : State), exec i s = .next t → exec i t = .next t

/-- R83, R84: a response carries exactly the results listed for its command, and only with OK: `pa` and
`perms` for XLATE, `r_index` for the writes, TLBP, TLBR and TLBINV, `r.*` for TLBR. -/
def Obligations.ResultsArePresentExactlyWhereListed : Prop :=
  ∀ (i : Instr) (s t : State), exec i s = .next t →
    ∃ r, t.rsp = some r
      ∧ (r.pa.isSome = true ↔ r.status = .ok ∧ ∃ va kind asid, i = .xlate va kind asid)
      ∧ (r.perms.isSome = true ↔ r.status = .ok ∧ ∃ va kind asid, i = .xlate va kind asid)
      ∧ (r.rIndex.isSome = true ↔ r.status = .ok
          ∧ (isWrite i = true ∨ (∃ va asid, i = .tlbp va asid) ∨ (∃ index, i = .tlbr index)
            ∨ ∃ index ext, i = .tlbinv index ext))
      ∧ (r.rEntry.isSome = true ↔ r.status = .ok ∧ ∃ index, i = .tlbr index)

/-- R84, R28, R29: at all times the level outputs `hflags` and `pamask` are the registers; the status code at the
response port identifies the status, has the values of the table, and is never 0x6, 0x7 or 0xC to 0xE; with no
response presented there is no code. -/
def Obligations.StatusCodesFollowTheTable : Prop :=
  (∀ s : State, s.outputs.hflags = s.hflags ∧ s.outputs.pamask = s.pamask)
    ∧ (∀ s : State, s.rsp = none → s.outputs.rspValid = false ∧ s.outputs.statusCode = none)
    ∧ ∀ (s : State) (r : Response), s.rsp = some r → s.outputs.rspValid = true ∧ ∃ k : BitVec 4,
      s.outputs.statusCode = some k
      ∧ (k = 0x0 ↔ r.status = .ok) ∧ (k = 0x1 ↔ r.status = .miss .refill) ∧ (k = 0x2 ↔ r.status = .miss .invalid)
      ∧ (k = 0x3 ↔ r.status = .miss .modified) ∧ (k = 0x4 ↔ r.status = .miss .accessDenied)
      ∧ (k = 0x5 ↔ r.status = .notFound) ∧ (k = 0x8 ↔ r.status = .err .indexOutOfRange)
      ∧ (k = 0x9 ↔ r.status = .err .malformedFields) ∧ (k = 0xA ↔ r.status = .err .noVictim)
      ∧ (k = 0xB ↔ r.status = .err .illegalCommand) ∧ (k = 0xF ↔ r.status = .fatal)
      ∧ k ≠ 0x6 ∧ k ≠ 0x7 ∧ k ≠ 0xC ∧ k ≠ 0xD ∧ k ≠ 0xE

/-! ### DERIVE (42_hflags.md R150 to R170) -/

/-- R152, R158, R159, R168: DERIVE answers OK and writes nothing but HFLAGS and PAMASK; ERL, FPU and F64
mirror Status.ERL, CU1 and FR, and bit 15 is 0. -/
def Obligations.DeriveMirrorsStatusBits : Prop :=
  ∀ s : State, ∃ (h : BitVec 16) (p : Word),
    exec .derive s = .next { s with hflags := h, pamask := p, rsp := some (Response.bare .ok) }
    ∧ hfErl h = s.cr.status.erl ∧ hfFpu h = s.cr.status.cu1 ∧ hfF64 h = s.cr.status.fr ∧ h.getLsbD 15 = false

/-- R153: PL copies Status.KSU when not in Exception Level, Error Level or Debug Mode, and is 0 otherwise. That the
reserved value 3 is copied too is the spec's own completion (D23, U4; log entry 13), and that 0 is the kernel level is
the PRESUMED encoding of log entry 16. -/
def Obligations.DeriveCopiesThePrivilegeLevel : Prop :=
  ∀ s : State, ∃ t, exec .derive s = .next t
    ∧ (s.cr.status.exl = false ∧ s.cr.status.erl = false ∧ s.dm = false → hfPl t.hflags = s.cr.status.ksu)
    ∧ (s.cr.status.exl = true ∨ s.cr.status.erl = true ∨ s.dm = true → hfPl t.hflags = 0)

/-- R154, R155, R156: without a 64-bit datapath A64 and AWRAP are 0; with one, AWRAP follows the four-way
rule in its order and A64 the condition of R155, which is the spec's general knowledge (log entry 14).
That 0 is kernel, 1 supervisor and 2 user is the PRESUMED encoding of log entry 16, and what holds at level 3 is the
spec's own completion (D23, U4; log entry 13). -/
def Obligations.DeriveAddressingFlags : Prop :=
  ∀ s : State, ∃ t, exec .derive s = .next t
    ∧ (s.cfg.vaw = .w32 → hfA64 t.hflags = false ∧ hfAwrap t.hflags = false)
    ∧ (s.cfg.vaw = .w64 →
      (hfA64 t.hflags = true ↔
        s.cfg.caps.isa64 = true ∧ (hfPl t.hflags ≠ 2 ∨ s.cr.status.ux = true ∨ s.cr.status.px = true))
      ∧ (s.cfg.caps.isa64 = false → hfAwrap t.hflags = true)
      ∧ (s.cfg.caps.isa64 = true → hfPl t.hflags = 2 → hfAwrap t.hflags = !s.cr.status.ux)
      ∧ (s.cfg.caps.isa64 = true → s.cfg.caps.r6 = true → hfPl t.hflags = 1 → hfAwrap t.hflags = !s.cr.status.sx)
      ∧ (s.cfg.caps.isa64 = true → s.cfg.caps.r6 = true → hfPl t.hflags = 0 → hfAwrap t.hflags = !s.cr.status.kx)
      ∧ (s.cfg.caps.isa64 = true → s.cfg.caps.r6 = false → hfPl t.hflags ≠ 2 → hfAwrap t.hflags = false)
      ∧ (s.cfg.caps.isa64 = true → hfPl t.hflags = 3 → hfAwrap t.hflags = false))

/-- R157, R160: CP0 is set when CU0 is set outside Release 6 or the level is not user; SBRI when the level is
not kernel and Config5 enables it. That the user level is 2 and the kernel level 0 is the PRESUMED encoding of log
entry 16, and what holds at level 3 is the spec's own completion (D23, U4; log entry 13). -/
def Obligations.DeriveCoprocessorAndTrapFlags : Prop :=
  ∀ s : State, ∃ t, exec .derive s = .next t
    ∧ (hfCp0 t.hflags = true ↔ (s.cr.status.cu0 = true ∧ s.cfg.caps.r6 = false) ∨ hfPl t.hflags ≠ 2)
    ∧ (hfSbri t.hflags = true ↔ hfPl t.hflags ≠ 0 ∧ s.cr.config5.sbri = true)

/-- R161, R164, R165, R166: DSP and DSPR2 by the configured extension and Status.MX; MSA by the configured
extension and Config5; FRE by the advertisement and Config5; ELPA by Config3 and PageGrain. -/
def Obligations.DeriveExtensionFlags : Prop :=
  ∀ s : State, ∃ t, exec .derive s = .next t
    ∧ (s.cr.status.mx = false → hfDsp t.hflags = false ∧ hfDspr2 t.hflags = false)
    ∧ (s.cr.status.mx = true → s.cfg.caps.dspr2 = true → hfDsp t.hflags = true ∧ hfDspr2 t.hflags = true)
    ∧ (s.cr.status.mx = true → s.cfg.caps.dspr2 = false →
      hfDsp t.hflags = s.cfg.caps.dsp ∧ hfDspr2 t.hflags = false)
    ∧ (hfMsa t.hflags = true ↔ s.cfg.caps.msa = true ∧ s.cr.config5.msaEn = true)
    ∧ (hfFre t.hflags = true ↔ s.cr.fpir.frep = true ∧ s.cr.config5.fre = true)
    ∧ (hfElpa t.hflags = true ↔ s.cr.config3.lpa = true ∧ s.cr.pageGrain.elpa = true)

/-- R163: COP1X by the first configured revision alone: R2 the FP register's 64-bit support, else M32 the
64-bit-addressing flag just derived, else MIPS-IV Status.CU3, else 0. -/
def Obligations.DeriveCop1xByRevision : Prop :=
  ∀ s : State, ∃ t, exec .derive s = .next t
    ∧ (s.cfg.caps.r2 = true → hfCop1x t.hflags = s.cr.fpir.f64)
    ∧ (s.cfg.caps.r2 = false → s.cfg.caps.m32 = true → hfCop1x t.hflags = hfA64 t.hflags)
    ∧ (s.cfg.caps.r2 = false → s.cfg.caps.m32 = false → s.cfg.caps.mips4 = true →
      hfCop1x t.hflags = s.cr.status.cu3)
    ∧ (s.cfg.caps.r2 = false → s.cfg.caps.m32 = false → s.cfg.caps.mips4 = false → hfCop1x t.hflags = false)

/-- R167: PAMASK is the extended width in ones when the ELPA just derived is set, else the base width, in
every legal configuration. -/
def Obligations.DeriveLatchesThePhysicalMask : Prop :=
  ∀ s : State, s.cfg.wf = true → ∃ t, exec .derive s = .next t
    ∧ t.pamask.toNat = 2 ^ (if hfElpa t.hflags = true then s.cfg.pabitsExt else s.cfg.pabitsBase) - 1

/-- R151, R168: the derived values are a function of the dependency set alone: two states that agree on it
get the same HFLAGS and PAMASK, whatever their old HFLAGS, PAMASK, store and other inputs. -/
def Obligations.DeriveReadsOnlyItsInputs : Prop :=
  ∀ s s' t t' : State,
    s.cfg.caps = s'.cfg.caps → s.cfg.vaw = s'.cfg.vaw →
    s.cfg.pabitsBase = s'.cfg.pabitsBase → s.cfg.pabitsExt = s'.cfg.pabitsExt →
    s.cr.status.erl = s'.cr.status.erl → s.cr.status.exl = s'.cr.status.exl →
    s.cr.status.ksu = s'.cr.status.ksu → s.cr.status.ux = s'.cr.status.ux →
    s.cr.status.sx = s'.cr.status.sx → s.cr.status.kx = s'.cr.status.kx →
    s.cr.status.px = s'.cr.status.px → s.cr.status.cu0 = s'.cr.status.cu0 →
    s.cr.status.cu1 = s'.cr.status.cu1 → s.cr.status.cu3 = s'.cr.status.cu3 →
    s.cr.status.fr = s'.cr.status.fr → s.cr.status.mx = s'.cr.status.mx → s.dm = s'.dm →
    s.cr.config5 = s'.cr.config5 → s.cr.fpir = s'.cr.fpir →
    s.cr.config3.lpa = s'.cr.config3.lpa → s.cr.pageGrain = s'.cr.pageGrain →
    exec .derive s = .next t → exec .derive s' = .next t' →
    t.hflags = t'.hflags ∧ t.pamask = t'.pamask

/-- R28, R169: only DERIVE and reset write HFLAGS and PAMASK: a step with the reset input released that does
not present opcode 0x8 leaves them as they are, whatever the inputs do. -/
def Obligations.FlagsChangeOnlyByDerive : Prop :=
  ∀ s t : State, step s = .next t →
    (∀ m rest, s.env = m :: rest → m.rst = false ∧ ∀ r, m.cmd = some r → r.op ≠ 0x8) →
    t.hflags = s.hflags ∧ t.pamask = s.pamask

/-! ### The adjacent functions (60_exceptions.md R192 to R203) -/

/-- R193, R194: the two predicates of the Interrupt Gate, with both controller semantics. The last clause, that an
interrupt is deliverable when both hold, is derived: R192 marks the conjunction as its own inference. -/
def Obligations.InterruptGateIsExact : Prop :=
  ∀ s : State,
    (s.outputs.irqEnabled = true ↔ s.cr.status.ie = true ∧ s.cr.status.exl = false ∧ s.cr.status.erl = false
      ∧ s.dm = false ∧ s.cr.tcStatus.ixmt = false)
    ∧ (s.cr.config3.veic = true →
      (s.outputs.irqPending = true ↔ s.cr.cause.ip.toNat > s.cr.status.im.toNat))
    ∧ (s.cr.config3.veic = false →
      (s.outputs.irqPending = true ↔ ∃ k, s.cr.cause.ip.getLsbD k = true ∧ s.cr.status.im.getLsbD k = true))
    ∧ (s.outputs.irqDeliverable = true ↔ s.outputs.irqEnabled = true ∧ s.outputs.irqPending = true)

/-- R195, R196: the two predicates of the Activation Gate. -/
def Obligations.ActivationGateIsExact : Prop :=
  ∀ s : State,
    (s.outputs.tcActive = false ↔ s.cr.mvpControl.evp = false ∨ s.cr.vpeConf0.vpa = false
      ∨ s.cr.tcStatus.a = false ∨ s.cr.tcHalt.h = true)
    ∧ (s.outputs.vpActive = true ↔ s.cr.vp.exclSelf = true ∨ s.cr.vp.exclSibling = false)

/-- R200, R201: each FP synchroniser maps its own rounding field through the configured table and copies its
own three flags, whatever HFLAGS holds. -/
def Obligations.FpSynchronisersFollowTheirRegister : Prop :=
  ∀ s : State,
    s.outputs.fpFlagsScalar = s.cr.fcr31.flags ∧ s.outputs.fpFlagsSimd = s.cr.msacsr.flags
    ∧ (∀ rm mode, (rm = 0 ∧ mode = s.cfg.rmTable.rm0) ∨ (rm = 1 ∧ mode = s.cfg.rmTable.rm1)
        ∨ (rm = 2 ∧ mode = s.cfg.rmTable.rm2) ∨ (rm = 3 ∧ mode = s.cfg.rmTable.rm3) →
      (s.cr.fcr31.rm = rm → s.outputs.fpRmScalar = mode) ∧ (s.cr.msacsr.rm = rm → s.outputs.fpRmSimd = mode))
end

