-- ==== Sys2Proof/Laws/Bits.lean ====
section
/-! SUPPORT. Fields and packing: what the bit helpers of the decoder do, and that splitting a joined list of
fields gives the fields back. -/

namespace Sys2Proof

theorem lowNat_lt (w x : Nat) : lowNat w x < 2 ^ w := Nat.mod_lt _ (Nat.two_pow_pos w)

theorem lowNat_of_lt {w x : Nat} (h : x < 2 ^ w) : lowNat w x = x := Nat.mod_eq_of_lt h

theorem toNat_lowBits (w : Nat) (x : Word) : (lowBits w x).toNat = x.toNat % 2 ^ w := by
  rw [lowBits, BitVec.toNat_ofNat]
  exact Nat.mod_eq_of_lt (Nat.lt_of_le_of_lt (Nat.mod_le _ _) x.isLt)

theorem lowBits_lt (w : Nat) (x : Word) : (lowBits w x).toNat < 2 ^ w := by
  rw [toNat_lowBits]; exact Nat.mod_lt _ (Nat.two_pow_pos w)

theorem lowBits_of_lt {w : Nat} {x : Word} (h : x.toNat < 2 ^ w) : lowBits w x = x := by
  apply BitVec.eq_of_toNat_eq
  rw [toNat_lowBits, Nat.mod_eq_of_lt h]

@[simp] theorem kind_ofBits_toBits (k : AccessKind) : AccessKind.ofBits k.toBits = k := by cases k <;> rfl

@[simp] theorem bitNat_beq_one (b : Bool) : (bitNat b == 1) = b := by cases b <;> rfl

theorem bitNat_lt (b : Bool) : bitNat b < 2 ^ 1 := by cases b <;> decide

@[simp] theorem lowNat_bitNat (b : Bool) : lowNat 1 (bitNat b) = bitNat b := lowNat_of_lt (bitNat_lt b)

/-- A signal of `w` wires keeps all its bits in a field of `w` bits. -/
@[simp] theorem lowNat_toNat {w : Nat} (x : BitVec w) : lowNat w x.toNat = x.toNat := lowNat_of_lt x.isLt

/-- A field of `w` bits of a lane is the lane's low bits. -/
theorem ofNat_lowNat (w : Nat) (x : Word) : BitVec.ofNat 64 (lowNat w x.toNat) = lowBits w x := rfl

/-- Joined fields fit the sum of their widths. -/
theorem joinLow_lt (l : List (Nat × Nat)) : joinLow l < 2 ^ (l.map Prod.fst).sum := by
  induction l with
  | nil => simp [joinLow]
  | cons p rest ih =>
    obtain ⟨w, v⟩ := p
    simp only [joinLow, List.map_cons, List.sum_cons, Nat.pow_add]
    have h := lowNat_lt w v
    calc lowNat w v + 2 ^ w * joinLow rest
        < 2 ^ w + 2 ^ w * joinLow rest := by omega
      _ = 2 ^ w * (joinLow rest + 1) := by ring
      _ ≤ 2 ^ w * 2 ^ (rest.map Prod.fst).sum := Nat.mul_le_mul_left _ ih

/-- A joined list of fields fits the sum of their widths. -/
theorem joinFields_lt (l : List (Nat × Nat)) : joinFields l < 2 ^ (l.map Prod.fst).sum := by
  have h := joinLow_lt l.reverse
  rwa [List.map_reverse, List.sum_reverse] at h

/-- Splitting joined fields gives the fields, each cut to its width. -/
theorem splitLow_joinLow (l : List (Nat × Nat)) :
    splitLow (l.map Prod.fst) (joinLow l) = l.map fun p => lowNat p.1 p.2 := by
  induction l with
  | nil => rfl
  | cons p rest ih =>
    obtain ⟨w, v⟩ := p
    simp only [List.map_cons, splitLow, joinLow]
    rw [Nat.add_mul_div_left _ _ (Nat.two_pow_pos w), Nat.div_eq_of_lt (lowNat_lt w v), Nat.zero_add, ih]
    congr 1
    simp [lowNat]

/-- Splitting a joined list gives the fields, each cut to its width. -/
theorem splitFields_joinFields (l : List (Nat × Nat)) :
    splitFields (l.map Prod.fst) (joinFields l) = l.map fun p => lowNat p.1 p.2 := by
  rw [splitFields, joinFields, ← List.map_reverse, splitLow_joinLow, List.map_reverse, List.reverse_reverse]

end Sys2Proof
end

