-- ==== Sys2Proof/Laws/Decode.lean ====
section
/-! SUPPORT. What the decoder, the record's widths and packing do. -/

namespace Sys2Proof

/-! ### Clipping to the signals -/

theorem subpage_clip_of_wellFormed {c : Config} {s : Subpage} (h : s.wellFormed c = true) : s.clip c = s := by
  simp only [Subpage.wellFormed, Bool.and_eq_true, decide_eq_true_eq] at h
  simp [Subpage.clip, lowNat_of_lt h.1, lowBits_of_lt h.2]

theorem fields_clip_of_wellFormed {c : Config} {f : EntryFields} (h : f.wellFormed c = true) : f.clip c = f := by
  simp only [EntryFields.wellFormed, Bool.and_eq_true, decide_eq_true_eq] at h
  obtain ⟨⟨⟨⟨h1, h2⟩, h3⟩, h4⟩, h5⟩ := h
  simp [EntryFields.clip, lowBits_of_lt h1, lowBits_of_lt h2, lowNat_of_lt h3, subpage_clip_of_wellFormed h4,
    subpage_clip_of_wellFormed h5]

theorem subpage_clip_wellFormed (c : Config) (s : Subpage) : (s.clip c).wellFormed c = true := by
  simp [Subpage.wellFormed, Subpage.clip, lowNat_lt, lowBits_lt]

theorem fields_clip_wellFormed (c : Config) (f : EntryFields) : (f.clip c).wellFormed c = true := by
  simp [EntryFields.wellFormed, EntryFields.clip, lowNat_lt, lowBits_lt, subpage_clip_wellFormed]

theorem record_clip_clip (c : Config) (r : CmdRecord) : (r.clip c).clip c = r.clip c := by
  simp [CmdRecord.clip, lowBits_of_lt (lowBits_lt _ _), lowNat_of_lt (lowNat_lt _ _),
    fields_clip_of_wellFormed (fields_clip_wellFormed _ _)]

@[simp] theorem record_clip_op (c : Config) (r : CmdRecord) : (r.clip c).op = r.op := rfl
@[simp] theorem record_clip_kind (c : Config) (r : CmdRecord) : (r.clip c).kind = r.kind := rfl
@[simp] theorem record_clip_index (c : Config) (r : CmdRecord) : (r.clip c).index = r.index := rfl
@[simp] theorem record_clip_ext (c : Config) (r : CmdRecord) : (r.clip c).ext = r.ext := rfl
@[simp] theorem record_clip_wired (c : Config) (r : CmdRecord) : (r.clip c).wired = r.wired := rfl
@[simp] theorem record_clip_rand (c : Config) (r : CmdRecord) : (r.clip c).rand = r.rand := rfl
@[simp] theorem record_clip_va (c : Config) (r : CmdRecord) : (r.clip c).va = lowBits c.vabits r.va := rfl
@[simp] theorem record_clip_asid (c : Config) (r : CmdRecord) : (r.clip c).asid = lowNat c.asidw r.asid := rfl
@[simp] theorem record_clip_f (c : Config) (r : CmdRecord) : (r.clip c).f = r.f.clip c := rfl

/-! ### Decoding -/

/-- The decoder looks at the record on its wires only. -/
theorem decode_clip (c : Config) (r : CmdRecord) : decode c (r.clip c) = decode c r := by
  simp only [decode, record_clip_clip, record_clip_op]

theorem decode_op1 {c : Config} {r : CmdRecord} (h : r.op = 1) :
    decode c r = .ok (.xlate (lowBits c.vabits r.va) (AccessKind.ofBits r.kind) (lowNat c.asidw r.asid)) := by
  simp [decode, h]
theorem decode_op2 {c : Config} {r : CmdRecord} (h : r.op = 2) : decode c r = .ok (.tlbwi r.index (r.f.clip c)) := by
  simp [decode, h]
theorem decode_op3 {c : Config} {r : CmdRecord} (h : r.op = 3) :
    decode c r = .ok (.tlbwr r.wired r.rand (r.f.clip c)) := by simp [decode, h]
theorem decode_op4 {c : Config} {r : CmdRecord} (h : r.op = 4) :
    decode c r = .ok (.tlbp (lowBits c.vabits r.va) (lowNat c.asidw r.asid)) := by simp [decode, h]
theorem decode_op5 {c : Config} {r : CmdRecord} (h : r.op = 5) : decode c r = .ok (.tlbr r.index) := by
  simp [decode, h]
theorem decode_op6 {c : Config} {r : CmdRecord} (h : r.op = 6) : decode c r = .ok (.tlbinv r.index r.ext) := by
  simp [decode, h]
theorem decode_op7 {c : Config} {r : CmdRecord} (h : r.op = 7) : decode c r = .ok .tlbflush := by
  simp [decode, h]
theorem decode_op8 {c : Config} {r : CmdRecord} (h : r.op = 8) : decode c r = .ok .derive := by
  simp [decode, h]

/-- The sixteen opcodes: one of the eight commands', or reserved (R82, R87). -/
theorem op_cases (op : BitVec 4) :
    op = 1 ∨ op = 2 ∨ op = 3 ∨ op = 4 ∨ op = 5 ∨ op = 6 ∨ op = 7 ∨ op = 8 ∨ (op = 0 ∨ 9 ≤ op.toNat) := by
  revert op; decide

theorem decode_reserved {c : Config} {r : CmdRecord} (h : r.op = 0 ∨ 9 ≤ r.op.toNat) :
    decode c r = .error (.reservedOpcode r.op) := by
  unfold decode
  generalize r.op = op at h ⊢
  revert op
  simp only
  intro op h
  split <;> first | rfl | (rename_i e; rcases h with rfl | h <;> simp_all)

/-! ### Packing (R92) -/

/-- Unpacking a packed record gives the record on its wires. -/
theorem unpack_pack (c : Config) (r : CmdRecord) : CmdRecord.unpack c (r.pack c) = r.clip c := by
  have h := splitFields_joinFields ((recordWidths c).zip r.values)
  rw [List.map_fst_zip (by simp [recordWidths, operandWidths, subpageWidths, CmdRecord.values, Subpage.values])] at h
  rw [CmdRecord.unpack, CmdRecord.pack, h]
  simp only [recordWidths, operandWidths, subpageWidths, CmdRecord.values, Subpage.values, List.cons_append, List.nil_append,
    List.zip_cons_cons, List.zip_nil_right, List.map_cons, List.map_nil]
  simp [CmdRecord.ofFields, CmdRecord.clip, Subpage.ofFields, EntryFields.clip, Subpage.clip,
    ofNat_lowNat]

end Sys2Proof
end

