-- ==== Sys2Proof/Laws/State.lean ====
section
/-! SUPPORT. One lemma per field per update of State, true by rfl, so that no later proof unfolds a record
update; and the two cases of the install step. -/

namespace Sys2Proof.Machine

open Sys2Proof

/-! ### respond -/

@[simp] theorem respond_cfg (s : State) (r : Response) : (s.respond r).cfg = s.cfg := rfl
@[simp] theorem respond_store (s : State) (r : Response) : (s.respond r).store = s.store := rfl
@[simp] theorem respond_hflags (s : State) (r : Response) : (s.respond r).hflags = s.hflags := rfl
@[simp] theorem respond_pamask (s : State) (r : Response) : (s.respond r).pamask = s.pamask := rfl
@[simp] theorem respond_cr (s : State) (r : Response) : (s.respond r).cr = s.cr := rfl
@[simp] theorem respond_dm (s : State) (r : Response) : (s.respond r).dm = s.dm := rfl
@[simp] theorem respond_rsp (s : State) (r : Response) : (s.respond r).rsp = some r := rfl
@[simp] theorem respond_env (s : State) (r : Response) : (s.respond r).env = s.env := rfl
@[simp] theorem respond_draws (s : State) (r : Response) : (s.respond r).draws = s.draws := rfl
@[simp] theorem respond_fatalRecorded (s : State) (r : Response) :
    (s.respond r).fatalRecorded = (s.fatalRecorded || decide (r.status = .fatal)) := rfl

/-- A response that is not Fatal changes nothing but the response port. -/
theorem respond_of_not_fatal {s : State} {r : Response} (h : r.status ≠ .fatal) :
    s.respond r = { s with rsp := some r } := by
  simp [State.respond, h]

/-- A Fatal response also sets the record. -/
theorem respond_of_fatal {s : State} {r : Response} (h : r.status = .fatal) :
    s.respond r = { s with rsp := some r, fatalRecorded := true } := by
  simp [State.respond, h]

/-! ### withStore and withFlags -/

@[simp] theorem withStore_cfg (s : State) (st : Store) : (s.withStore st).cfg = s.cfg := rfl
@[simp] theorem withStore_store (s : State) (st : Store) : (s.withStore st).store = st := rfl
@[simp] theorem withStore_hflags (s : State) (st : Store) : (s.withStore st).hflags = s.hflags := rfl
@[simp] theorem withStore_pamask (s : State) (st : Store) : (s.withStore st).pamask = s.pamask := rfl
@[simp] theorem withStore_cr (s : State) (st : Store) : (s.withStore st).cr = s.cr := rfl
@[simp] theorem withStore_dm (s : State) (st : Store) : (s.withStore st).dm = s.dm := rfl
@[simp] theorem withStore_rsp (s : State) (st : Store) : (s.withStore st).rsp = s.rsp := rfl
@[simp] theorem withStore_env (s : State) (st : Store) : (s.withStore st).env = s.env := rfl
@[simp] theorem withStore_draws (s : State) (st : Store) : (s.withStore st).draws = s.draws := rfl
@[simp] theorem withStore_fatalRecorded (s : State) (st : Store) :
    (s.withStore st).fatalRecorded = s.fatalRecorded := rfl

@[simp] theorem withFlags_cfg (s : State) (h : BitVec 16) (p : Word) : (s.withFlags h p).cfg = s.cfg := rfl
@[simp] theorem withFlags_store (s : State) (h : BitVec 16) (p : Word) : (s.withFlags h p).store = s.store := rfl
@[simp] theorem withFlags_hflags (s : State) (h : BitVec 16) (p : Word) : (s.withFlags h p).hflags = h := rfl
@[simp] theorem withFlags_pamask (s : State) (h : BitVec 16) (p : Word) : (s.withFlags h p).pamask = p := rfl
@[simp] theorem withFlags_cr (s : State) (h : BitVec 16) (p : Word) : (s.withFlags h p).cr = s.cr := rfl
@[simp] theorem withFlags_dm (s : State) (h : BitVec 16) (p : Word) : (s.withFlags h p).dm = s.dm := rfl
@[simp] theorem withFlags_rsp (s : State) (h : BitVec 16) (p : Word) : (s.withFlags h p).rsp = s.rsp := rfl
@[simp] theorem withFlags_env (s : State) (h : BitVec 16) (p : Word) : (s.withFlags h p).env = s.env := rfl
@[simp] theorem withFlags_draws (s : State) (h : BitVec 16) (p : Word) : (s.withFlags h p).draws = s.draws := rfl
@[simp] theorem withFlags_fatalRecorded (s : State) (h : BitVec 16) (p : Word) :
    (s.withFlags h p).fatalRecorded = s.fatalRecorded := rfl

/-! ### drive and idle -/

@[simp] theorem drive_cfg (s : State) (m : EnvMove) (l : List EnvMove) : (s.drive m l).cfg = s.cfg := rfl
@[simp] theorem drive_store (s : State) (m : EnvMove) (l : List EnvMove) : (s.drive m l).store = s.store := rfl
@[simp] theorem drive_hflags (s : State) (m : EnvMove) (l : List EnvMove) : (s.drive m l).hflags = s.hflags := rfl
@[simp] theorem drive_pamask (s : State) (m : EnvMove) (l : List EnvMove) : (s.drive m l).pamask = s.pamask := rfl
@[simp] theorem drive_cr (s : State) (m : EnvMove) (l : List EnvMove) : (s.drive m l).cr = m.cr := rfl
@[simp] theorem drive_dm (s : State) (m : EnvMove) (l : List EnvMove) : (s.drive m l).dm = m.dm := rfl
@[simp] theorem drive_rsp (s : State) (m : EnvMove) (l : List EnvMove) : (s.drive m l).rsp = s.rsp := rfl
@[simp] theorem drive_env (s : State) (m : EnvMove) (l : List EnvMove) : (s.drive m l).env = l := rfl
@[simp] theorem drive_draws (s : State) (m : EnvMove) (l : List EnvMove) : (s.drive m l).draws = s.draws := rfl
@[simp] theorem drive_fatalRecorded (s : State) (m : EnvMove) (l : List EnvMove) :
    (s.drive m l).fatalRecorded = s.fatalRecorded := rfl

@[simp] theorem idle_cfg (s : State) : s.idle.cfg = s.cfg := rfl
@[simp] theorem idle_store (s : State) : s.idle.store = s.store := rfl
@[simp] theorem idle_hflags (s : State) : s.idle.hflags = s.hflags := rfl
@[simp] theorem idle_pamask (s : State) : s.idle.pamask = s.pamask := rfl
@[simp] theorem idle_cr (s : State) : s.idle.cr = s.cr := rfl
@[simp] theorem idle_dm (s : State) : s.idle.dm = s.dm := rfl
@[simp] theorem idle_rsp (s : State) : s.idle.rsp = none := rfl
@[simp] theorem idle_env (s : State) : s.idle.env = s.env := rfl
@[simp] theorem idle_draws (s : State) : s.idle.draws = s.draws := rfl
@[simp] theorem idle_fatalRecorded (s : State) : s.idle.fatalRecorded = s.fatalRecorded := rfl

/-! ### applyReset -/

@[simp] theorem applyReset_cfg (s : State) : s.applyReset.cfg = s.cfg := rfl
@[simp] theorem applyReset_cr (s : State) : s.applyReset.cr = s.cr := rfl
@[simp] theorem applyReset_dm (s : State) : s.applyReset.dm = s.dm := rfl
@[simp] theorem applyReset_rsp (s : State) : s.applyReset.rsp = none := rfl
@[simp] theorem applyReset_env (s : State) : s.applyReset.env = s.env := rfl
@[simp] theorem applyReset_draws (s : State) : s.applyReset.draws = s.draws + 1 := rfl
@[simp] theorem applyReset_fatalRecorded (s : State) : s.applyReset.fatalRecorded = s.fatalRecorded := rfl
@[simp] theorem applyReset_liveCount (s : State) : s.applyReset.store.liveCount = s.cfg.ntlb := rfl
@[simp] theorem applyReset_strategy (s : State) : s.applyReset.store.strategy = s.cfg.strategy := rfl

/-! ### Responses -/

@[simp] theorem bare_status (st : Status) : (Response.bare st).status = st := rfl
@[simp] theorem bare_rIndex (st : Status) : (Response.bare st).rIndex = none := rfl
@[simp] theorem translated_status (pa : Word) (p : BitVec 3) : (Response.translated pa p).status = .ok := rfl
@[simp] theorem translated_pa (pa : Word) (p : BitVec 3) : (Response.translated pa p).pa = some pa := rfl
@[simp] theorem translated_perms (pa : Word) (p : BitVec 3) : (Response.translated pa p).perms = some p := rfl
@[simp] theorem index_status (i : IndexWord) : (Response.index i).status = .ok := rfl
@[simp] theorem index_rIndex (i : IndexWord) : (Response.index i).rIndex = some i := rfl
@[simp] theorem entry_status (i : IndexWord) (e : Entry) : (Response.entry i e).status = .ok := rfl

/-! ### The install step (R120) -/

theorem installAt_of_wfMask {s : State} {f : EntryFields} (h : wfMask s.cfg f.mask = true) (t : Nat) :
    s.installAt t f = { s with store := s.store.install t f, rsp := some (Response.index (BitVec.ofNat 32 t)) } := by
  simp [State.installAt, h, State.respond, State.withStore]

theorem installAt_of_not_wfMask {s : State} {f : EntryFields} (h : wfMask s.cfg f.mask = false) (t : Nat) :
    s.installAt t f = { s with rsp := some (Response.bare (.err .malformedFields)) } := by
  simp [State.installAt, h, State.respond]

end Sys2Proof.Machine
end

