-- ==== Sys2Proof/Laws/Store.lean ====
section
/-! SUPPORT. What the operations over the store do, entry by entry; masks, hits and overlaps as
propositions. -/

namespace Sys2Proof.Machine

open Sys2Proof

/-! ### Masks -/

/-- `wf_mask` is the existence of a page size (R58). -/
theorem wfMask_iff (c : Config) (m : Word) : wfMask c m = true ↔ ∃ k, MaskOfShift c m k := by
  simp only [wfMask, List.any_eq_true, List.mem_range, Bool.and_eq_true, decide_eq_true_eq, beq_iff_eq, MaskOfShift]
  exact ⟨fun ⟨k, h, h', h''⟩ => ⟨k, h', h, h''⟩, fun ⟨k, h', h, h''⟩ => ⟨k, h, h', h''⟩⟩

theorem wfMask_of_maskOfShift {c : Config} {m : Word} {k : Nat} (h : MaskOfShift c m k) : wfMask c m = true :=
  (wfMask_iff c m).2 ⟨k, h⟩

theorem wfMask_eq_false_iff (c : Config) (m : Word) : wfMask c m = false ↔ ¬∃ k, MaskOfShift c m k := by
  rw [← wfMask_iff, Bool.not_eq_true]

theorem vabits_le (c : Config) : c.vabits ≤ 64 := by
  unfold Config.vabits AddrWidth.bits; split <;> omega

/-- Bit `j` of a mask of page size `2^k` (R58). -/
theorem mask_getLsbD {c : Config} {m : Word} {k : Nat} (h : MaskOfShift c m k) (j : Nat) :
    m.getLsbD j = decide (j ≤ k) := by
  obtain ⟨_, hk, hm⟩ := h
  have hle := vabits_le c
  rw [← BitVec.testBit_toNat, hm, Nat.testBit_two_pow_sub_one]
  simp only [decide_eq_decide]; omega

/-- `shift_of` of a well-formed mask (R14). -/
theorem shiftOf_eq {c : Config} {m : Word} {k : Nat} (h : MaskOfShift c m k) : shiftOf m = k := by
  obtain ⟨_, _, hm⟩ := h
  have h1 : 2 ^ k ≤ 2 ^ (k + 1) - 1 := by rw [Nat.pow_succ]; have := Nat.two_pow_pos k; omega
  have h2 : 2 ^ (k + 1) - 1 < 2 ^ (k + 1) := by have := Nat.two_pow_pos (k + 1); omega
  rw [shiftOf, hm]
  exact (Nat.log2_eq_iff (by have := Nat.two_pow_pos k; omega)).2 ⟨h1, h2⟩

/-- The mask formula of `sel` picks bit `s` of the address (R14, R61). -/
theorem subpageSel_eq {c : Config} {m : Word} {k : Nat} (h : MaskOfShift c m k) (va : Word) :
    subpageSel va m = va.getLsbD k := by
  have hk : k < 64 := by have := h.2.1; have := vabits_le c; omega
  have key : ∀ j, j < 64 → (va &&& (m ^^^ (m >>> 1))).getLsbD j = (decide (j = k) && va.getLsbD k) := by
    intro j _
    simp only [BitVec.getLsbD_and, BitVec.getLsbD_xor, BitVec.getLsbD_ushiftRight, mask_getLsbD h]
    by_cases e : j = k
    · subst e
      have : ¬(1 + j ≤ j) := by omega
      simp [this]
    · by_cases l : j ≤ k
      · have : 1 + j ≤ k := by omega
        simp [l, this, e]
      · have : ¬(1 + j ≤ k) := by omega
        simp [l, this, e]
  unfold subpageSel
  cases hb : va.getLsbD k
  · have : va &&& (m ^^^ (m >>> 1)) = 0 := by
      apply BitVec.eq_of_getLsbD_eq
      intro j hj
      rw [key j hj, hb]; simp
    simp [this]
  · have : va &&& (m ^^^ (m >>> 1)) ≠ 0 := by
      intro e
      have := key k hk
      rw [e, hb] at this
      simp at this
    simpa using this

/-! ### Entries -/

theorem entry_eq_getElem {st : Store} {i : Nat} (h : i < st.entries.length) : st.entry i = st.entries[i] := by
  simp only [Store.entry, List.getD_eq_getElem _ _ h]

theorem entry_of_length_le {st : Store} {i : Nat} (h : st.entries.length ≤ i) : st.entry i = Entry.blank := by
  simp only [Store.entry, List.getD_eq_default _ _ h]

@[simp] theorem update_length (st : Store) (f : Nat → Entry → Entry) :
    (st.update f).entries.length = st.entries.length := by simp [Store.update]
@[simp] theorem update_liveCount (st : Store) (f : Nat → Entry → Entry) :
    (st.update f).liveCount = st.liveCount := rfl
@[simp] theorem update_strategy (st : Store) (f : Nat → Entry → Entry) :
    (st.update f).strategy = st.strategy := rfl

theorem update_sameFrame (st : Store) (f : Nat → Entry → Entry) : st.SameFrame (st.update f) := ⟨by simp, rfl, rfl⟩

/-- An updated entry, inside the array. -/
theorem update_entry {st : Store} {i : Nat} (f : Nat → Entry → Entry) (h : i < st.entries.length) :
    (st.update f).entry i = f i (st.entry i) := by
  rw [entry_eq_getElem (by simpa using h), entry_eq_getElem h]
  simp [Store.update]

/-- An updated entry, past the array. -/
theorem update_entry_of_le {st : Store} {i : Nat} (f : Nat → Entry → Entry) (h : st.entries.length ≤ i) :
    (st.update f).entry i = st.entry i := by
  rw [entry_of_length_le (by simpa using h), entry_of_length_le h]

/-- Past the array no entry is live, so a live entry is inside it. -/
theorem lt_length_of_live {st : Store} {i : Nat} (h : st.live i = true) : i < st.entries.length := by
  by_contra hc
  rw [Store.live, entry_of_length_le (by omega)] at h
  simp [Entry.blank] at h

theorem live_iff (st : Store) (i : Nat) : st.live i = true ↔ i < st.liveCount ∧ (st.entry i).ei = false := by
  simp [Store.live]

/-! ### The overlap relation (R66, R67) -/

theorem rangeOverlap_comm (v1 m1 v2 m2 : Word) : rangeOverlap v1 m1 v2 m2 = rangeOverlap v2 m2 v1 m1 := by
  simp only [rangeOverlap, BitVec.xor_comm v1 v2, BitVec.or_comm m1 m2]

theorem scopeOverlap_comm (g1 : Bool) (a1 : Nat) (g2 : Bool) (a2 : Nat) :
    scopeOverlap g1 a1 g2 a2 = scopeOverlap g2 a2 g1 a1 := by
  rw [Bool.eq_iff_iff]
  simp only [scopeOverlap, Bool.or_eq_true, beq_iff_eq, or_comm (a := g1 = true), eq_comm (a := a1)]

theorem overlaps_comm (e1 e2 : Entry) : e1.overlaps e2 = e2.overlaps e1 := by
  simp only [Entry.overlaps, rangeOverlap_comm e1.vpn, scopeOverlap_comm e1.g]

/-- The overlap set of R120 and R125, written out. -/
theorem inOverlapSet_iff (st : Store) (t : Nat) (e : Entry) (j : Nat) :
    st.inOverlapSet t e j = true ↔ j ≠ t ∧ st.Overlapping e.vpn e.pageMask e.g e.asid j := by
  simp [Store.inOverlapSet, Store.Overlapping, live_iff, Entry.overlaps, rangeOverlap, scopeOverlap, and_assoc, or_assoc]

/-- Two matches of one lookup overlap in range and in scope (R35's argument). -/
theorem overlaps_of_hits {st : Store} {va : Word} {asid i j : Nat} (hi : st.hit va asid i = true)
    (hj : st.hit va asid j = true) : (st.entry i).overlaps (st.entry j) = true := by
  simp only [Store.hit, Entry.matches, Bool.and_eq_true, beq_iff_eq, Bool.or_eq_true] at hi hj
  obtain ⟨-, vi, ai⟩ := hi
  obtain ⟨-, vj, aj⟩ := hj
  simp only [Entry.overlaps, rangeOverlap, scopeOverlap, Bool.and_eq_true, beq_iff_eq, Bool.or_eq_true]
  constructor
  · rw [← vi, ← vj]
    apply BitVec.eq_of_getLsbD_eq
    intro k hk
    simp only [BitVec.getLsbD_and, BitVec.getLsbD_xor, BitVec.getLsbD_not, BitVec.getLsbD_or]
    cases va.getLsbD k <;> cases (st.entry i).pageMask.getLsbD k <;> cases (st.entry j).pageMask.getLsbD k <;> simp
  · rcases ai with h | h <;> rcases aj with h' | h'
    · exact .inl (.inl h)
    · exact .inl (.inl h)
    · exact .inl (.inr h')
    · exact .inr (h.trans h'.symm)

theorem live_of_hit {st : Store} {va : Word} {asid i : Nat} (h : st.hit va asid i = true) : st.live i = true := by
  simp only [Store.hit, Bool.and_eq_true] at h
  exact h.1

/-! ### Hits -/

theorem mem_hits (s : State) (va : Word) (asid i : Nat) :
    i ∈ s.hits va asid ↔ i < s.cfg.ntlb ∧ s.store.hit va asid i = true := by
  simp [State.hits]

theorem hits_eq_nil_iff (s : State) (va : Word) (asid : Nat) : s.hits va asid = [] ↔ s.NoHit va asid := by
  simp [State.hits, State.NoHit, List.filter_eq_nil_iff]

theorem hits_nodup (s : State) (va : Word) (asid : Nat) : (s.hits va asid).Nodup :=
  List.Nodup.filter _ List.nodup_range

/-- The list of matches is one index exactly when that index is the unique match. -/
theorem hits_eq_singleton_iff (s : State) (va : Word) (asid i : Nat) :
    s.hits va asid = [i] ↔ s.UniqueHit va asid i := by
  constructor
  · intro h
    have m := fun j => (mem_hits s va asid j)
    rw [h] at m
    have hi := (m i).1 (by simp)
    exact ⟨hi.1, hi.2, fun j hj hh => by simpa using (m j).2 ⟨hj, hh⟩⟩
  · rintro ⟨hi, hh, hu⟩
    have hn := hits_nodup s va asid
    have hm : i ∈ s.hits va asid := (mem_hits ..).2 ⟨hi, hh⟩
    have ha : ∀ j ∈ s.hits va asid, j = i := fun j hj =>
      hu j ((mem_hits ..).1 hj).1 ((mem_hits ..).1 hj).2
    match hl : s.hits va asid with
    | []          => rw [hl] at hm; simp at hm
    | [a]         => rw [hl] at ha; rw [ha a (by simp)]
    | a :: b :: l =>
      rw [hl] at ha hn
      have e1 := ha a (by simp)
      have e2 := ha b (by simp)
      simp [e1, e2] at hn

/-- Two different matches make the list of matches longer than one. -/
theorem hits_of_two {s : State} {va : Word} {asid i j : Nat} (hi : i ∈ s.hits va asid) (hj : j ∈ s.hits va asid)
    (hne : i ≠ j) : ∃ a b l, s.hits va asid = a :: b :: l := by
  match hl : s.hits va asid with
  | []          => rw [hl] at hi; simp at hi
  | [a]         =>
    rw [hl] at hi hj
    simp only [List.mem_singleton] at hi hj
    exact absurd (hi.trans hj.symm) hne
  | a :: b :: l => exact ⟨a, b, l, rfl⟩

/-! ### The writes -/

theorem install_sameFrame (st : Store) (t : Nat) (f : EntryFields) : st.SameFrame (st.install t f) :=
  update_sameFrame ..

theorem install_entry_target {st : Store} {t : Nat} (f : EntryFields) (h : t < st.entries.length) :
    (st.install t f).entry t = Entry.ofFields f := by
  rw [Store.install, update_entry _ h]; simp

theorem install_entry_other {st : Store} {t j : Nat} (f : EntryFields) (h : j < st.entries.length) (hne : j ≠ t) :
    (st.install t f).entry j
      = if st.inOverlapSet t (Entry.ofFields f) j then (st.entry j).invalidate else st.entry j := by
  rw [Store.install, update_entry _ h]; simp [hne]

theorem invalidate_sameFrame (c : Config) (st : Store) (t : Nat) (ext : Bool) :
    st.SameFrame (st.invalidate c t ext) := update_sameFrame ..

theorem invalidate_entry {c : Config} {st : Store} {t j : Nat} (ext : Bool) (h : j < st.entries.length) :
    (st.invalidate c t ext).entry j
      = if j = t ∨ st.isSibling c t ext j = true then (st.entry j).invalidate else st.entry j := by
  rw [Store.invalidate, update_entry _ h]

theorem flush_sameFrame (st : Store) : st.SameFrame st.flush := update_sameFrame ..

theorem flush_entry {st : Store} {j : Nat} (h : j < st.entries.length) : st.flush.entry j = (st.entry j).invalidate := by
  rw [Store.flush, update_entry _ h]

@[simp] theorem invalidate_ei (e : Entry) : e.invalidate.ei = true := rfl

/-- Every entry is invalid after a flush, past the array too. -/
theorem flush_entry_ei (st : Store) (j : Nat) : (st.flush.entry j).ei = true := by
  by_cases h : j < st.entries.length
  · rw [flush_entry h]; rfl
  · rw [Store.flush, update_entry_of_le _ (by omega), entry_of_length_le (by omega)]; rfl

/-- The widths of an entry's fields, as a proposition. -/
theorem fits_iff (c : Config) (e : Entry) : e.fits c = true ↔
    e.vpn.toNat < 2 ^ c.vabits ∧ e.pageMask.toNat < 2 ^ c.vabits ∧ e.asid < 2 ^ c.asidw
      ∧ e.sub0.wellFormed c = true ∧ e.sub1.wellFormed c = true := by
  simp [Entry.fits, and_assoc]

/-- Invalidating an entry leaves its fields within their widths and its INV-VPN. -/
theorem invalidate_fits {c : Config} {e : Entry} (h : e.fits c = true) : e.invalidate.fits c = true := h

@[simp] theorem invalidate_vpnOk (c : Config) (e : Entry) : e.invalidate.vpnOk c = true := by simp [Entry.vpnOk]

end Sys2Proof.Machine
end

