-- ==== Sys2Proof/Laws/Exec.lean ====
section
/-! SUPPORT. What one command can do (said once, for every later proof to cite), and what one step can do. -/

namespace Sys2Proof.Machine

open Sys2Proof

/-- The response of XLATE is Fatal only when two entries match (R68). -/
theorem xlateEntry_not_fatal (c : Config) (e : Entry) (va : Word) (kind : AccessKind) :
    (xlateEntry c e va kind).status ≠ .fatal := by
  unfold xlateEntry; split <;> simp

theorem xlateRefill_of_noHit {s : State} {va : Word} {asid : Nat} (h : s.NoHit va asid) (kind : AccessKind) :
    xlateRefill s va kind asid = Response.bare (.miss .refill) := by
  rw [xlateRefill, (hits_eq_nil_iff ..).2 h]

theorem xlateRefill_of_unique {s : State} {va : Word} {asid i : Nat} (h : s.UniqueHit va asid i)
    (kind : AccessKind) : xlateRefill s va kind asid = xlateEntry s.cfg (s.store.entry i) va kind := by
  rw [xlateRefill, (hits_eq_singleton_iff ..).2 h]

theorem probeResponse_of_noHit {s : State} {va : Word} {asid : Nat} (h : s.NoHit va asid) :
    probeResponse s va asid = Response.bare .notFound := by
  rw [probeResponse, (hits_eq_nil_iff ..).2 h]

theorem probeResponse_of_unique {s : State} {va : Word} {asid i : Nat} (h : s.UniqueHit va asid i) :
    probeResponse s va asid = Response.index (BitVec.ofNat 32 i) := by
  rw [probeResponse, (hits_eq_singleton_iff ..).2 h]

/-- XLATE under SoftwareRefill for a kind that is not reserved. -/
theorem xlateResponse_refill {s : State} (hs : s.store.strategy = .softwareRefill) {kind : AccessKind}
    (hk : kind ≠ .reserved) (va : Word) (asid : Nat) :
    xlateResponse s va kind asid = xlateRefill s va kind asid := by
  simp [xlateResponse, hk, hs]

/-- XLATE of a reserved kind (R88). -/
theorem xlateResponse_reserved (s : State) (va : Word) (asid : Nat) :
    xlateResponse s va .reserved asid = Response.bare (.err .illegalCommand) := by
  simp [xlateResponse]

/-- What a command does: it is a lookup (response only), a refused command (response only), an install at an
index with a well-formed mask, an invalidation, a flush, or a derivation. -/
theorem exec_cases {i : Instr} {s t : State} (h : exec i s = .next t) :
    (∃ r, t = s.respond r ∧
      ((∃ va kind asid, i = .xlate va kind asid ∧ r = xlateResponse s va kind asid)
        ∨ (∃ va asid, i = .tlbp va asid ∧ r = probeResponse s va asid)
        ∨ (∃ index, i = .tlbr index ∧ index.toNat < s.cfg.ntlb
            ∧ r = Response.entry index (s.store.entry index.toNat))
        ∨ ∃ e, r = Response.bare (.err e)))
    ∨ (∃ n f, wfMask s.cfg f.mask = true ∧ n < s.cfg.ntlb
        ∧ ((∃ index, i = .tlbwi index f ∧ n = index.toNat)
          ∨ ∃ wired rand, i = .tlbwr wired rand f ∧ wired.toNat < s.cfg.ntlb ∧ n = victim s.cfg wired rand)
        ∧ t = (s.withStore (s.store.install n f)).respond (Response.index (BitVec.ofNat 32 n)))
    ∨ (∃ index ext, i = .tlbinv index ext ∧ index.toNat < s.cfg.ntlb
        ∧ t = (s.withStore (s.store.invalidate s.cfg index.toNat ext)).respond (Response.index index))
    ∨ (i = .tlbflush ∧ t = (s.withStore s.store.flush).respond (Response.bare .ok))
    ∨ (i = .derive ∧ t = (s.withFlags (deriveHflags s.cfg s.cr s.dm) (derivePamask s.cfg s.cr)).respond
        (Response.bare .ok)) := by
  cases i with
  | xlate va kind asid =>
    simp only [exec, execXlate, Host.Outcome.next.injEq] at h
    exact .inl ⟨_, h.symm, .inl ⟨va, kind, asid, rfl, rfl⟩⟩
  | tlbwi index f =>
    simp only [exec, execTlbwi] at h
    split at h <;> simp only [Host.Outcome.next.injEq] at h
    · rename_i hn
      cases hw : wfMask s.cfg f.mask
      · exact .inl ⟨_, by rw [← h, State.installAt, hw]; rfl, .inr (.inr (.inr ⟨_, rfl⟩))⟩
      · exact .inr (.inl ⟨_, f, hw, hn, .inl ⟨index, rfl, rfl⟩, by rw [← h, State.installAt, hw]; rfl⟩)
    · exact .inl ⟨_, h.symm, .inr (.inr (.inr ⟨_, rfl⟩))⟩
  | tlbwr wired rand f =>
    simp only [exec, execTlbwr] at h
    split at h <;> simp only [Host.Outcome.next.injEq] at h
    · rename_i hn
      cases hw : wfMask s.cfg f.mask
      · exact .inl ⟨_, by rw [← h, State.installAt, hw]; rfl, .inr (.inr (.inr ⟨_, rfl⟩))⟩
      · have hv : victim s.cfg wired rand < s.cfg.ntlb := by
          unfold victim
          have := Nat.mod_lt rand.toNat (show 0 < s.cfg.ntlb - wired.toNat by omega)
          omega
        exact .inr (.inl ⟨_, f, hw, hv, .inr ⟨wired, rand, rfl, hn, rfl⟩, by rw [← h, State.installAt, hw]; rfl⟩)
    · exact .inl ⟨_, h.symm, .inr (.inr (.inr ⟨_, rfl⟩))⟩
  | tlbp va asid =>
    simp only [exec, execTlbp, Host.Outcome.next.injEq] at h
    exact .inl ⟨_, h.symm, .inr (.inl ⟨va, asid, rfl, rfl⟩)⟩
  | tlbr index =>
    simp only [exec, execTlbr] at h
    split at h <;> simp only [Host.Outcome.next.injEq] at h
    · rename_i hn
      exact .inl ⟨_, h.symm, .inr (.inr (.inl ⟨index, rfl, hn, rfl⟩))⟩
    · exact .inl ⟨_, h.symm, .inr (.inr (.inr ⟨_, rfl⟩))⟩
  | tlbinv index ext =>
    simp only [exec, execTlbinv] at h
    split at h <;> simp only [Host.Outcome.next.injEq] at h
    · rename_i hn
      exact .inr (.inr (.inl ⟨index, ext, rfl, hn, h.symm⟩))
    · exact .inl ⟨_, h.symm, .inr (.inr (.inr ⟨_, rfl⟩))⟩
  | tlbflush =>
    simp only [exec, execTlbflush, Host.Outcome.next.injEq] at h
    exact .inr (.inr (.inr (.inl ⟨rfl, h.symm⟩)))
  | derive =>
    simp only [exec, execDerive, Host.Outcome.next.injEq] at h
    exact .inr (.inr (.inr (.inr ⟨rfl, h.symm⟩)))

/-- What a step does: it holds, resets, answers a reserved opcode, or executes a decoded command, each with
the environment's move driven. -/
theorem step_cases {s t : State} (h : step s = .next t) :
    (s.env = [] ∧ t = s.idle)
    ∨ ∃ m rest, s.env = m :: rest ∧
      ((m.rst = true ∧ t = (s.drive m rest).applyReset)
        ∨ (m.rst = false ∧ m.cmd = none ∧ t = (s.drive m rest).idle)
        ∨ (∃ r e, m.rst = false ∧ m.cmd = some r ∧ decode s.cfg r = .error e ∧ t = (s.drive m rest).illegalCommand)
        ∨ ∃ r i, m.rst = false ∧ m.cmd = some r ∧ decode s.cfg r = .ok i ∧ exec i (s.drive m rest) = .next t) := by
  unfold step at h
  split at h
  · rename_i he
    simp only [Host.Outcome.next.injEq] at h
    exact .inl ⟨he, h.symm⟩
  · rename_i m rest he
    refine .inr ⟨m, rest, he, ?_⟩
    split at h
    · rename_i hr
      simp only [Host.Outcome.next.injEq] at h
      exact .inl ⟨hr, h.symm⟩
    · rename_i hr
      have hr' : m.rst = false := by simpa using hr
      split at h
      · rename_i hc
        simp only [Host.Outcome.next.injEq] at h
        exact .inr (.inl ⟨hr', hc, h.symm⟩)
      · rename_i r hc
        split at h
        · rename_i e hd
          simp only [Host.Outcome.next.injEq] at h
          exact .inr (.inr (.inl ⟨r, e, hr', hc, hd, h.symm⟩))
        · rename_i i hd
          exact .inr (.inr (.inr ⟨r, i, hr', hc, hd, h⟩))

end Sys2Proof.Machine
end

