-- ==== Sys2Proof/Laws/Flags.lean ====
section
/-! SUPPORT. Each field of the derived flags word is its item's value: the layout of 10_state.md R28. -/

namespace Sys2Proof.Machine

open Sys2Proof

/-- The word of 15 fields, for the accessor lemmas. -/
theorem packed_fields (b15 elpa fre msa cop1x dspr2 dsp sbri f64 fpu cp0 awrap a64 erl : Bool) (pl : BitVec 2) :
    let h : BitVec 16 := BitVec.ofBool b15 ++ (BitVec.ofBool elpa ++ (BitVec.ofBool fre ++ (BitVec.ofBool msa
      ++ (BitVec.ofBool cop1x ++ (BitVec.ofBool dspr2 ++ (BitVec.ofBool dsp ++ (BitVec.ofBool sbri
      ++ (BitVec.ofBool f64 ++ (BitVec.ofBool fpu ++ (BitVec.ofBool cp0 ++ (BitVec.ofBool awrap
      ++ (BitVec.ofBool a64 ++ (BitVec.ofBool erl ++ pl)))))))))))))
    hfPl h = pl ∧ hfErl h = erl ∧ hfA64 h = a64 ∧ hfAwrap h = awrap ∧ hfCp0 h = cp0 ∧ hfFpu h = fpu
      ∧ hfF64 h = f64 ∧ hfSbri h = sbri ∧ hfDsp h = dsp ∧ hfDspr2 h = dspr2 ∧ hfCop1x h = cop1x ∧ hfMsa h = msa
      ∧ hfFre h = fre ∧ hfElpa h = elpa ∧ h.getLsbD 15 = b15 := by
  refine ⟨?_, ?_⟩
  · apply BitVec.eq_of_getLsbD_eq
    intro i hi
    simp only [hfPl, BitVec.getLsbD_extractLsb', BitVec.getLsbD_append]
    have : i = 0 ∨ i = 1 := by omega
    rcases this with rfl | rfl <;> simp
  · simp only [hfErl, hfA64, hfAwrap, hfCp0, hfFpu, hfF64, hfSbri, hfDsp, hfDspr2, hfCop1x, hfMsa, hfFre, hfElpa,
      BitVec.getLsbD_append, BitVec.getLsbD_ofBool]
    simp

section
variable (c : Config) (cr : ControlRegs) (dm : Bool)

@[simp] theorem deriveHflags_pl : hfPl (deriveHflags c cr dm) = derivePl cr dm :=
  (packed_fields false _ _ _ _ _ _ _ _ _ _ _ _ _ _).1
@[simp] theorem deriveHflags_erl : hfErl (deriveHflags c cr dm) = deriveErl cr :=
  (packed_fields false _ _ _ _ _ _ _ _ _ _ _ _ _ _).2.1
@[simp] theorem deriveHflags_a64 : hfA64 (deriveHflags c cr dm) = deriveA64 c cr dm :=
  (packed_fields false _ _ _ _ _ _ _ _ _ _ _ _ _ _).2.2.1
@[simp] theorem deriveHflags_awrap : hfAwrap (deriveHflags c cr dm) = deriveAwrap c cr dm :=
  (packed_fields false _ _ _ _ _ _ _ _ _ _ _ _ _ _).2.2.2.1
@[simp] theorem deriveHflags_cp0 : hfCp0 (deriveHflags c cr dm) = deriveCp0 c cr dm :=
  (packed_fields false _ _ _ _ _ _ _ _ _ _ _ _ _ _).2.2.2.2.1
@[simp] theorem deriveHflags_fpu : hfFpu (deriveHflags c cr dm) = deriveFpu cr :=
  (packed_fields false _ _ _ _ _ _ _ _ _ _ _ _ _ _).2.2.2.2.2.1
@[simp] theorem deriveHflags_f64 : hfF64 (deriveHflags c cr dm) = deriveF64 cr :=
  (packed_fields false _ _ _ _ _ _ _ _ _ _ _ _ _ _).2.2.2.2.2.2.1
@[simp] theorem deriveHflags_sbri : hfSbri (deriveHflags c cr dm) = deriveSbri cr dm :=
  (packed_fields false _ _ _ _ _ _ _ _ _ _ _ _ _ _).2.2.2.2.2.2.2.1
@[simp] theorem deriveHflags_dsp : hfDsp (deriveHflags c cr dm) = deriveDsp c cr :=
  (packed_fields false _ _ _ _ _ _ _ _ _ _ _ _ _ _).2.2.2.2.2.2.2.2.1
@[simp] theorem deriveHflags_dspr2 : hfDspr2 (deriveHflags c cr dm) = deriveDspr2 c cr :=
  (packed_fields false _ _ _ _ _ _ _ _ _ _ _ _ _ _).2.2.2.2.2.2.2.2.2.1
@[simp] theorem deriveHflags_cop1x : hfCop1x (deriveHflags c cr dm) = deriveCop1x c cr dm :=
  (packed_fields false _ _ _ _ _ _ _ _ _ _ _ _ _ _).2.2.2.2.2.2.2.2.2.2.1
@[simp] theorem deriveHflags_msa : hfMsa (deriveHflags c cr dm) = deriveMsa c cr :=
  (packed_fields false _ _ _ _ _ _ _ _ _ _ _ _ _ _).2.2.2.2.2.2.2.2.2.2.2.1
@[simp] theorem deriveHflags_fre : hfFre (deriveHflags c cr dm) = deriveFre cr :=
  (packed_fields false _ _ _ _ _ _ _ _ _ _ _ _ _ _).2.2.2.2.2.2.2.2.2.2.2.2.1
@[simp] theorem deriveHflags_elpa : hfElpa (deriveHflags c cr dm) = deriveElpa cr :=
  (packed_fields false _ _ _ _ _ _ _ _ _ _ _ _ _ _).2.2.2.2.2.2.2.2.2.2.2.2.2.1
@[simp] theorem deriveHflags_bit15 : (deriveHflags c cr dm).getLsbD 15 = false :=
  (packed_fields false _ _ _ _ _ _ _ _ _ _ _ _ _ _).2.2.2.2.2.2.2.2.2.2.2.2.2.2

end

/-- A mask of `n` ones, for `n` at most 64. -/
theorem ones_toNat {n : Nat} (h : n ≤ 64) : (BitVec.ofNat 64 (2 ^ n - 1)).toNat = 2 ^ n - 1 := by
  rw [BitVec.toNat_ofNat]
  have h1 : 2 ^ n ≤ 2 ^ 64 := Nat.pow_le_pow_right (by omega) h
  have h2 := Nat.two_pow_pos n
  exact Nat.mod_eq_of_lt (by omega)

end Sys2Proof.Machine
end

