-- ==== Sys2Proof/Laws/Translate.lean ====
section
/-! SUPPORT. The lookup's operations, said once: the arithmetic of page masks, the checks and permissions, the
physical address, and what the responses of the lookups read (20_memory.md R58 to R66, R76). -/

namespace Sys2Proof.Machine

open Sys2Proof

/-- The constraints on the widths of a legal configuration (R5). -/
theorem cfg_wf_bits {c : Config} (h : c.wf = true) : c.pabitsBase ≤ c.pabitsExt ∧ c.pabitsExt ≤ 64
    ∧ c.pg < c.pabitsBase ∧ 1 ≤ c.pg ∧ 1 ≤ c.ntlb ∧ c.ntlb ≤ 2^32 := by
  simp only [Config.wf, Bool.and_eq_true, decide_eq_true_eq] at h
  omega

/-- Bit `j` of the offset mask `M >> 1` (R62). -/
theorem getLsbD_off {c : Config} {m : Word} {k : Nat} (h : MaskOfShift c m k) (j : Nat) :
    (m >>> 1).getLsbD j = decide (j < k) := by
  rw [BitVec.getLsbD_ushiftRight, mask_getLsbD h]; simp; omega

/-- Clearing the bits under a mask keeps the multiple of the span size. -/
theorem and_not_mask_toNat {c : Config} {m : Word} {k : Nat} (h : MaskOfShift c m k) (v : Word) :
    (v &&& ~~~m).toNat = v.toNat / 2^(k+1) * 2^(k+1) := by
  have hk : k < 64 := by have := h.2.1; have := vabits_le c; omega
  apply Nat.eq_of_testBit_eq
  intro j
  rw [BitVec.testBit_toNat, BitVec.getLsbD_and, BitVec.getLsbD_not, mask_getLsbD h,
    Nat.testBit_mul_two_pow, Nat.testBit_div_two_pow]
  by_cases hj : j ≤ k
  · have : ¬ k + 1 ≤ j := by omega
    simp [hj, this]
  · have h1 : k + 1 ≤ j := by omega
    rw [show j - (k+1) + (k+1) = j by omega, BitVec.testBit_toNat]
    by_cases h64 : j < 64
    · simp [h1, h64, show ¬ j ≤ k by omega]
    · simp [BitVec.getLsbD_of_ge _ _ (show 64 ≤ j by omega), h64]

/-- A masked VPN is a multiple of the span size (R22, R66). -/
theorem masked_dvd {c : Config} {m : Word} {k : Nat} (h : MaskOfShift c m k) {v : Word} (hv : v &&& m = 0) :
    v.toNat % 2^(k+1) = 0 := by
  have : v &&& ~~~m = v := by
    apply BitVec.eq_of_getLsbD_eq
    intro j hj
    have := congrArg (fun x => BitVec.getLsbD x j) hv
    simp only [BitVec.getLsbD_and] at this
    simp only [BitVec.getLsbD_and, BitVec.getLsbD_not, hj]
    cases h1 : v.getLsbD j <;> cases h2 : m.getLsbD j <;> simp_all
  rw [← this, and_not_mask_toNat h, Nat.mul_mod_left]

/-- A masked address equals a masked VPN exactly inside the pair span `[VPN, VPN + M]` (R58). -/
theorem span_iff {c : Config} {m : Word} {k : Nat} (h : MaskOfShift c m k) {v : Word} (hv : v &&& m = 0) (x : Word) :
    (x &&& ~~~m) = v ↔ v.toNat ≤ x.toNat ∧ x.toNat ≤ v.toNat + m.toNat := by
  have hd := masked_dvd h hv
  have hm := h.2.2
  have hp := Nat.two_pow_pos (k+1)
  rw [← BitVec.toNat_inj, and_not_mask_toNat h, hm]
  generalize 2^(k+1) = P at *
  generalize x.toNat = X at *
  generalize v.toNat = V at *
  obtain ⟨q, rfl⟩ : ∃ q, V = q * P := ⟨V / P, by have := Nat.div_add_mod V P; rw [Nat.mul_comm]; omega⟩
  constructor
  · intro e
    have : X / P = q := Nat.eq_of_mul_eq_mul_right hp e
    have h1 := Nat.div_mul_le_self X P
    have h2 := Nat.lt_div_mul_add (a := X) hp
    omega
  · rintro ⟨h1, h2⟩
    have : X / P = q := by
      apply Nat.div_eq_of_lt_le
      · exact h1
      · rw [Nat.succ_mul]; omega
    rw [this]

/-- The selected record, by bit `k` of the address (R61). -/
theorem subpage_eq {c : Config} {e : Entry} {k : Nat} (h : MaskOfShift c e.pageMask k) (va : Word) :
    e.subpage va = if va.getLsbD k then e.sub1 else e.sub0 := by
  rw [Entry.subpage, subpageSel_eq h]

/-- The checks of R64 let an access through exactly when the record allows it. -/
theorem checkSubpage_none_iff (c : Config) (r : Subpage) (kind : AccessKind) (hk : kind ≠ .reserved) :
    checkSubpage c r kind = none ↔ Allows c r kind := by
  cases kind <;> simp [checkSubpage, Allows] at hk ⊢ <;> cases r.v <;> cases r.d <;> cases r.xi <;> cases r.ri <;> simp

/-- The three permission bits (R65, R86). -/
theorem perms_bits (c : Config) (r : Subpage) :
    (subpagePerms c r).getLsbD 0 = !r.ri ∧ (subpagePerms c r).getLsbD 1 = r.d
    ∧ (subpagePerms c r).getLsbD 2 = (!r.xi && !(r.ri && c.riBlocksExecute)) := by
  simp only [subpagePerms, BitVec.getLsbD_append, BitVec.getLsbD_ofBool]; simp

/-- The physical address on naturals: the frame at the granularity of the page, then the offset, cut to PAW
bits (R63). -/
theorem physAddr_toNat {c : Config} {m : Word} {k : Nat} (hm : MaskOfShift c m k) {pfn : Word} (va : Word)
    (hp : pfn.toNat < 2 ^ c.pfnw) (hc : c.wf = true) :
    (physAddr c pfn m va).toNat = (pfn.toNat * 2 ^ c.pg / 2 ^ k * 2 ^ k + va.toNat % 2 ^ k) % 2 ^ c.paw := by
  have hb := cfg_wf_bits hc
  have hk : k < 64 := by have := hm.2.1; have := vabits_le c; omega
  have hpw : c.paw ≤ 64 := hb.2.1
  have hbound : pfn.toNat * 2 ^ c.pg < 2 ^ c.paw := by
    have : 2 ^ c.paw = 2 ^ c.pfnw * 2 ^ c.pg := by rw [← Nat.pow_add, Config.pfnw]; congr 1; unfold Config.paw; omega
    rw [this]; exact Nat.mul_lt_mul_of_pos_right hp (Nat.two_pow_pos _)
  have hle : 2 ^ c.paw ≤ 2 ^ 64 := Nat.pow_le_pow_right (by omega) hpw
  have hsh : (pfn <<< c.pg).toNat = pfn.toNat * 2 ^ c.pg := by
    rw [BitVec.toNat_shiftLeft, Nat.shiftLeft_eq]; exact Nat.mod_eq_of_lt (by omega)
  have : (((pfn <<< c.pg) &&& ~~~(m >>> 1)) ||| pageOffset va m).toNat
      = pfn.toNat * 2 ^ c.pg / 2 ^ k * 2 ^ k + va.toNat % 2 ^ k := by
    apply Nat.eq_of_testBit_eq
    intro j
    rw [BitVec.testBit_toNat, BitVec.getLsbD_or, pageOffset, BitVec.getLsbD_and, BitVec.getLsbD_and,
      BitVec.getLsbD_not, getLsbD_off hm]
    rw [Nat.mul_comm, Nat.testBit_two_pow_mul_add _ (Nat.mod_lt _ (Nat.two_pow_pos k)), ← hsh]
    by_cases hj : j < k
    · simp [hj, Nat.testBit_mod_two_pow, ← BitVec.testBit_toNat]
    · have e : j - k + k = j := by omega
      simp only [hj, if_false, Nat.testBit_div_two_pow, e, decide_false, Bool.not_false,
        Bool.and_true, Bool.and_false, Bool.or_false, BitVec.testBit_toNat]
      by_cases h64 : j < 64
      · simp [h64]
      · rw [BitVec.getLsbD_of_ge _ _ (by omega)]; simp
  rw [physAddr, resizePaw, this, BitVec.toNat_ofNat]
  exact Nat.mod_eq_of_lt (Nat.lt_of_lt_of_le (Nat.mod_lt _ (Nat.two_pow_pos _)) hle)

/-- The one matching entry answers OK exactly when its selected record allows the access. -/
theorem xlateEntry_ok_iff (c : Config) (e : Entry) (va : Word) {k : AccessKind} (hk : k ≠ .reserved) :
    (xlateEntry c e va k).status = .ok ↔ Allows c (e.subpage va) k := by
  rw [← checkSubpage_none_iff _ _ _ hk, xlateEntry]
  cases checkSubpage c (e.subpage va) k <;> simp

/-- A window covers an address on naturals (R102). -/
theorem windowCovers_iff (va : Word) (w : Window) :
    windowCovers va w = true ↔ w.vbase ≤ va.toNat ∧ va.toNat - w.vbase < w.vsize := by
  simp [windowCovers]

/-- The matches read the configuration and the store alone (R76). -/
theorem hits_congr {s s' : State} (hc : s.cfg = s'.cfg) (hs : s.store = s'.store) (va asid) :
    s.hits va asid = s'.hits va asid := by
  simp only [State.hits, hc, hs]

/-- So does the response of XLATE (R76). -/
theorem xlate_congr {s s' : State} (hc : s.cfg = s'.cfg) (hs : s.store = s'.store) (va k asid) :
    xlateResponse s va k asid = xlateResponse s' va k asid := by
  simp only [xlateResponse, xlateRefill, hits_congr hc hs, hc, hs]

/-- So does the response of TLBP (R76). -/
theorem probe_congr {s s' : State} (hc : s.cfg = s'.cfg) (hs : s.store = s'.store) (va asid) :
    probeResponse s va asid = probeResponse s' va asid := by
  simp only [probeResponse, hits_congr hc hs]

end Sys2Proof.Machine
end

