-- ==== Sys2Proof/Laws/Invariant.lean ====
section
/-! SUPPORT. What the store's writes and the reset input leave, for the invariants (10_state.md R22, R34,
41_tlb_maintenance.md R120, R125, R127, 70_reset_and_hazards.md R211). -/

namespace Sys2Proof.Machine

open Sys2Proof

/-- Fields that fit their wires give an entry that fits its storage. -/
theorem ofFields_fits {c : Config} {f : EntryFields} (h : f.wellFormed c = true) :
    (Entry.ofFields f).fits c = true := by
  simp only [EntryFields.wellFormed, Bool.and_eq_true, decide_eq_true_eq] at h
  obtain ⟨⟨⟨⟨h1, h2⟩, h3⟩, h4⟩, h5⟩ := h
  refine (fits_iff ..).2 ⟨?_, h2, h3, h4, h5⟩
  rw [Entry.ofFields, BitVec.toNat_and]
  exact Nat.lt_of_le_of_lt Nat.and_le_left h1

/-- An installed entry satisfies INV-VPN (R127). -/
theorem ofFields_vpnOk {c : Config} {f : EntryFields} (h : wfMask c f.mask = true) :
    (Entry.ofFields f).vpnOk c = true := by
  simp only [Entry.vpnOk, Entry.ofFields, h, Bool.false_or, Bool.true_and, beq_iff_eq]
  apply BitVec.eq_of_getLsbD_eq
  intro k hk
  simp only [BitVec.getLsbD_and, BitVec.getLsbD_not]
  cases f.vpn.getLsbD k <;> cases f.mask.getLsbD k <;> simp

/-- The frame number of a stored record fits PFNW bits. -/
theorem sub_fits {s : State} (hS : s.Shape) {i : Nat} (hi : i < s.cfg.ntlb) (va : Word) :
   ((s.store.entry i).subpage va).pfn.toNat < 2 ^ s.cfg.pfnw := by
  have := (fits_iff ..).1 (hS.fits i hi)
  simp only [Subpage.wellFormed, Bool.and_eq_true, decide_eq_true_eq] at this
  rw [Entry.subpage]; split
  · exact this.2.2.2.2.2
  · exact this.2.2.2.1.2

/-- The siblings of R125, written out. -/
theorem sib_iff (c : Config) (st : Store) (t : Nat) (ext : Bool) (j : Nat) : st.isSibling c t ext j = true ↔
    ext = true ∧ (∃ k, MaskOfShift c (st.entry t).pageMask k) ∧ j ≠ t
      ∧ st.Overlapping ((st.entry t).vpn &&& ~~~(st.entry t).pageMask) (st.entry t).pageMask (st.entry t).g
          (st.entry t).asid j := by
  simp [Store.isSibling, wfMask_iff, inOverlapSet_iff, and_assoc]

/-- Installing writes no field but EntryInvalid of another entry (R120). -/
theorem install_other_fields (st : Store) (n : Nat) (f : EntryFields) {j : Nat} (hne : j ≠ n) :
    (st.install n f).entry j = { st.entry j with ei := ((st.install n f).entry j).ei } := by
  by_cases hj : j < st.entries.length
  · rw [install_entry_other f hj hne]; split <;> rfl
  · rw [Store.install, update_entry_of_le _ (by omega)]

/-- With no two live entries overlapping, a match is the only one (R35). -/
theorem unique_of_hit {s : State} (hI : s.InvOverlap) {va asid i} (hi : i < s.cfg.ntlb)
    (h : s.store.hit va asid i = true) : s.UniqueHit va asid i := by
  refine ⟨hi, h, fun j hj hh => ?_⟩
  by_contra hne
  have := hI j hj i hi hne (live_of_hit hh) (live_of_hit h)
  rw [overlaps_of_hits hh h] at this; cases this

/-- A free lane fits its width. -/
theorem freeWord_lt (w d x i) : (freeWord w d x i).toNat < 2 ^ w := by
  rw [freeWord, BitVec.toNat_ofNat]
  exact Nat.lt_of_le_of_lt (Nat.mod_le _ _) (lowNat_lt _ _)

/-- A free entry fits its storage. -/
theorem freeEntry_fits (c d i) : (freeEntry c d i).fits c = true := by
  simp [Entry.fits, freeEntry, freeWord_lt, lowNat_lt, freeSubpage, Subpage.wellFormed]

/-- Entry `i` after the reset input (R211). -/
theorem applyReset_entry (s : State) {i : Nat} (hi : i < s.cfg.ntlb) :
    s.applyReset.store.entry i = freeEntry s.cfg s.draws i := by
  rw [entry_eq_getElem (by simpa [State.applyReset] using hi)]
  simp [State.applyReset]

@[simp] theorem applyReset_entries_length (s : State) : s.applyReset.store.entries.length = s.cfg.ntlb := by
  simp [State.applyReset]

/-- Every entry of the model's reset state is the blank one (log entry 2). -/
theorem resetOf_entry (c : Config) (i : Nat) : (State.resetOf c).store.entry i = Entry.blank := by
  by_cases hi : i < c.ntlb
  · rw [entry_eq_getElem (by simpa [State.resetOf] using hi)]; simp [State.resetOf]
  · rw [entry_of_length_le (by simpa [State.resetOf] using hi)]

end Sys2Proof.Machine
end

