-- ==== Sys2Proof/Laws/PerInstr.lean ====
section
/-! SUPPORT. The family RoundTrip, one lemma per constructor of Instr: a command whose operands fit their
signals is the command its record decodes to. -/

namespace Sys2Proof.Laws.RoundTrip

open Sys2Proof

/-- The record that presents the command decodes to the command (30_encoding.md R80 to R83). -/
def Statement (i : Instr) : Prop := ∀ c : Config, i.wellFormed c = true → decode c (encode i) = .ok i

theorem xlate (va : Word) (kind : AccessKind) (asid : Nat) : Statement (.xlate va kind asid) := by
  intro c h
  simp only [Instr.wellFormed, Bool.and_eq_true, decide_eq_true_eq] at h
  rw [decode_op1 rfl]
  simp [encode, lowBits_of_lt h.1, lowNat_of_lt h.2]

theorem tlbwi (index : IndexWord) (f : EntryFields) : Statement (.tlbwi index f) := by
  intro c h
  rw [decode_op2 rfl]
  simp [encode, fields_clip_of_wellFormed (f := f) h]

theorem tlbwr (wired rand : IndexWord) (f : EntryFields) : Statement (.tlbwr wired rand f) := by
  intro c h
  rw [decode_op3 rfl]
  simp [encode, fields_clip_of_wellFormed (f := f) h]

theorem tlbp (va : Word) (asid : Nat) : Statement (.tlbp va asid) := by
  intro c h
  simp only [Instr.wellFormed, Bool.and_eq_true, decide_eq_true_eq] at h
  rw [decode_op4 rfl]
  simp [encode, lowBits_of_lt h.1, lowNat_of_lt h.2]

theorem tlbr (index : IndexWord) : Statement (.tlbr index) := fun _ _ => decode_op5 rfl

theorem tlbinv (index : IndexWord) (ext : Bool) : Statement (.tlbinv index ext) := fun _ _ => decode_op6 rfl

theorem tlbflush : Statement .tlbflush := fun _ _ => decode_op7 rfl

theorem derive : Statement .derive := fun _ _ => decode_op8 rfl

end Sys2Proof.Laws.RoundTrip
end

