-- ==== Sys2Proof/Machine/Text.lean ====
section
/-! DEFINITION. The textual syntax of commands and responses (30_encoding.md R90), as lists of characters: a
reader of commands, and writers of commands and responses. The syntax carries no meaning; where R90 leaves a
choice of form the writers' choice is log entry 21. -/

namespace Sys2Proof.Machine

open Sys2Proof

/-! ### Reading -/

/-- The opening brace of a subpage record. -/
def openBrace : Char := Char.ofNat 123
/-- The closing brace of a subpage record. -/
def closeBrace : Char := Char.ofNat 125

/-- The value of a hexadecimal digit. -/
def digitValue (c : Char) : Option Nat :=
  if 48 ≤ c.toNat ∧ c.toNat ≤ 57 then some (c.toNat - 48)
  else if 65 ≤ c.toNat ∧ c.toNat ≤ 70 then some (c.toNat - 55)
  else if 97 ≤ c.toNat ∧ c.toNat ≤ 102 then some (c.toNat - 87)
  else none

/-- The value of digits in a base, after the value read so far. -/
def readDigits (base acc : Nat) : List Char → Option Nat
  | []      => some acc
  | c :: cs =>
    match digitValue c with
    | some d => if d < base then readDigits base (base * acc + d) cs else none
    | none   => none

/-- A number: decimal, or hexadecimal after `0x`. -/
def readNumber : List Char → Option Nat
  | []                    => none
  | '0' :: 'x' :: d :: ds => readDigits 16 0 (d :: ds)
  | cs                    => readDigits 10 0 cs

/-- A number below a bound. -/
def readBelow (bound : Nat) (cs : List Char) : Option Nat :=
  match readNumber cs with
  | some n => if n < bound then some n else none
  | none   => none

/-- A bit. -/
def readBit (cs : List Char) : Option Bool := (readBelow 2 cs).map (· == 1)

/-- The fields of a comma-separated text, blanks removed. -/
def splitCommas : List Char → List (List Char)
  | []      => [[]]
  | c :: cs =>
    if c = ',' then [] :: splitCommas cs
    else if c = ' ' then splitCommas cs
    else match splitCommas cs with
      | []        => [[c]]
      | w :: rest => (c :: w) :: rest

/-- The mnemonic and the rest of a command's text. -/
def splitMnemonic : List Char → List Char × List Char
  | []      => ([], [])
  | c :: cs => if c = ' ' then ([], cs) else ((c :: (splitMnemonic cs).1), (splitMnemonic cs).2)

/-- The kind letter of an XLATE. -/
def readKind : List Char → Option AccessKind
  | ['R'] => some .read
  | ['W'] => some .write
  | ['X'] => some .execute
  | _     => none

/-- A field that begins with the character `b`, without it. -/
def dropFirst (b : Char) : List Char → Option (List Char)
  | []      => none
  | c :: cs => if c = b then some cs else none

/-- A subpage record of six fields, braces included. -/
def readSubpage (c v d xi ri pfn : List Char) : Option Subpage := do
  let c ← readNumber (← dropFirst openBrace c)
  let v ← readBit v
  let d ← readBit d
  let xi ← readBit xi
  let ri ← readBit ri
  let pfn ← readBelow (2 ^ 64) (← (dropFirst closeBrace pfn.reverse).map List.reverse)
  some { c := c, v := v, d := d, xi := xi, ri := ri, pfn := BitVec.ofNat 64 pfn }

/-- An `entry` of sixteen fields. -/
def readEntry : List (List Char) → Option EntryFields
  | [vpn, mask, asid, g, c0, v0, d0, x0, r0, p0, c1, v1, d1, x1, r1, p1] => do
    let vpn ← readBelow (2 ^ 64) vpn
    let mask ← readBelow (2 ^ 64) mask
    let asid ← readNumber asid
    let g ← readBit g
    let sub0 ← readSubpage c0 v0 d0 x0 r0 p0
    let sub1 ← readSubpage c1 v1 d1 x1 r1 p1
    some { vpn := BitVec.ofNat 64 vpn, mask := BitVec.ofNat 64 mask, asid := asid, g := g, sub0 := sub0, sub1 := sub1 }
  | _ => none

/-- The operands of a command's text, by its mnemonic. -/
def readOperands (mnemonic : List Char) (ops : List (List Char)) : Option Instr :=
  if mnemonic = "XLATE".toList then
    match ops with
    | [k, va, asid] => do
      let k ← readKind k
      let va ← readBelow (2 ^ 64) va
      let asid ← readNumber asid
      some (.xlate (BitVec.ofNat 64 va) k asid)
    | _ => none
  else if mnemonic = "TLBWI".toList then
    match ops with
    | index :: entry => do
      let index ← readBelow (2 ^ 32) index
      let f ← readEntry entry
      some (.tlbwi (BitVec.ofNat 32 index) f)
    | _ => none
  else if mnemonic = "TLBWR".toList then
    match ops with
    | wired :: rand :: entry => do
      let wired ← readBelow (2 ^ 32) wired
      let rand ← readBelow (2 ^ 32) rand
      let f ← readEntry entry
      some (.tlbwr (BitVec.ofNat 32 wired) (BitVec.ofNat 32 rand) f)
    | _ => none
  else if mnemonic = "TLBP".toList then
    match ops with
    | [va, asid] => do
      let va ← readBelow (2 ^ 64) va
      let asid ← readNumber asid
      some (.tlbp (BitVec.ofNat 64 va) asid)
    | _ => none
  else if mnemonic = "TLBR".toList then
    match ops with
    | [index] => (readBelow (2 ^ 32) index).map fun n => .tlbr (BitVec.ofNat 32 n)
    | _ => none
  else if mnemonic = "TLBINV".toList then
    match ops with
    | [index, ext] => do
      let index ← readBelow (2 ^ 32) index
      let ext ← readBit ext
      some (.tlbinv (BitVec.ofNat 32 index) ext)
    | _ => none
  else if mnemonic = "TLBFLUSH".toList then if ops = [[]] then some .tlbflush else none
  else if mnemonic = "DERIVE".toList then if ops = [[]] then some .derive else none
  else none

/-- The command a text stands for (R90); it may still not fit the configuration's signals. -/
def readInstr (text : List Char) : Option Instr :=
  readOperands (splitMnemonic text).1 (splitCommas (splitMnemonic text).2)

/-! ### Writing -/

/-- The digit of a value below 16. -/
def digitChar (n : Nat) : Char := if n < 10 then Char.ofNat (48 + n) else Char.ofNat (55 + n)

/-- The low `k` digits of a number in a base. -/
def writeDigits (base : Nat) : Nat → Nat → List Char
  | 0,     _ => []
  | k + 1, n => writeDigits base k (n / base) ++ [digitChar (n % base)]

/-- A number in decimal, no leading zeros. -/
def writeDecimal (n : Nat) : List Char :=
  if n = 0 then ['0'] else (writeDigits 10 (n.log2 + 1) n).dropWhile (· == '0')

/-- A number in hexadecimal, its low `k` digits. -/
def writeHex (k n : Nat) : List Char := "0x".toList ++ writeDigits 16 k n

/-- A bit. -/
def writeBit (b : Bool) : List Char := if b then ['1'] else ['0']

/-- Texts joined by commas. -/
def joinCommas : List (List Char) → List Char
  | []        => []
  | [w]       => w
  | w :: rest => w ++ ',' :: ' ' :: joinCommas rest

/-- A subpage record. -/
def writeSubpage (r : Subpage) : List Char :=
  openBrace :: writeDecimal r.c ++ ',' :: writeBit r.v ++ ',' :: writeBit r.d ++ ',' :: writeBit r.xi
    ++ ',' :: writeBit r.ri ++ ',' :: writeHex 16 r.pfn.toNat ++ [closeBrace]

/-- An `entry`. -/
def writeEntry (f : EntryFields) : List (List Char) :=
  [writeHex 16 f.vpn.toNat, writeHex 16 f.mask.toNat, writeDecimal f.asid, writeBit f.g, writeSubpage f.sub0,
    writeSubpage f.sub1]

/-- The kind letter; a reserved kind is written as its code, which no reader accepts. -/
def writeKind : AccessKind → List Char
  | .read     => ['R']
  | .write    => ['W']
  | .execute  => ['X']
  | .reserved => ['3']

/-- The text of a command (R90). -/
def writeInstr : Instr → List Char
  | .xlate va k asid    => "XLATE ".toList ++ joinCommas [writeKind k, writeHex 16 va.toNat, writeDecimal asid]
  | .tlbwi index f      => "TLBWI ".toList ++ joinCommas (writeDecimal index.toNat :: writeEntry f)
  | .tlbwr wired rand f =>
    "TLBWR ".toList ++ joinCommas (writeDecimal wired.toNat :: writeDecimal rand.toNat :: writeEntry f)
  | .tlbp va asid       => "TLBP ".toList ++ joinCommas [writeHex 16 va.toNat, writeDecimal asid]
  | .tlbr index         => "TLBR ".toList ++ writeDecimal index.toNat
  | .tlbinv index ext   => "TLBINV ".toList ++ joinCommas [writeDecimal index.toNat, writeBit ext]
  | .tlbflush           => "TLBFLUSH".toList
  | .derive             => "DERIVE".toList

/-- The name of a status (R84). -/
def Status.name : Status → List Char
  | .ok                   => "OK".toList
  | .miss .refill         => "Miss.Refill".toList
  | .miss .invalid        => "Miss.Invalid".toList
  | .miss .modified       => "Miss.Modified".toList
  | .miss .accessDenied   => "Miss.AccessDenied".toList
  | .notFound             => "NotFound".toList
  | .err .indexOutOfRange => "Err.IndexOutOfRange".toList
  | .err .malformedFields => "Err.MalformedFields".toList
  | .err .noVictim        => "Err.NoVictim".toList
  | .err .illegalCommand  => "Err.IllegalCommand".toList
  | .fatal                => "Fatal.InternalInconsistency".toList

/-- The fields of an entry read back. -/
def writeReadBack (e : Entry) : List Char :=
  " vpn=".toList ++ writeHex 16 e.vpn.toNat ++ " mask=".toList ++ writeHex 16 e.pageMask.toNat
    ++ " asid=".toList ++ writeDecimal e.asid ++ " g=".toList ++ writeBit e.g ++ " ei=".toList ++ writeBit e.ei
    ++ " sub0=".toList ++ writeSubpage e.sub0 ++ " sub1=".toList ++ writeSubpage e.sub1

/-- The text of a response: `-> STATUS` and the results it carries (R90). -/
def writeResponse (c : Config) (r : Response) : List Char :=
  "-> ".toList ++ r.status.name
    ++ ((r.pa.map fun pa => " pa=".toList ++ writeHex ((c.paw + 3) / 4) pa.toNat).getD [])
    ++ ((r.perms.map fun p => " perms=0b".toList ++ writeDigits 2 3 p.toNat).getD [])
    ++ ((r.rIndex.map fun i => " r_index=".toList ++ writeDecimal i.toNat).getD [])
    ++ ((r.rEntry.map writeReadBack).getD [])

end Sys2Proof.Machine
end

