-- ==== Sys2Proof/Tests/Slice0.lean ====
section
/-! SUPPORT. The model's own tests: ill-formed commands refused, records written out bit by bit decoded, one-step
results taken from spec/95_test_vectors.md, and for every statement with hypotheses a named witness that meets
them. -/

namespace Sys2Proof.Tests

open Sys2Proof Sys2Proof.Machine

/-! ### Helpers -/

/-- The subpage record `{c,v,d,xi,ri,pfn}`. -/
def sub (c : Nat) (v d xi ri : Bool) (pfn : Word) : Subpage := { c := c, v := v, d := d, xi := xi, ri := ri, pfn := pfn }

/-- A clean writable record `{0,1,1,0,0,p}`. -/
def plain (p : Word) : Subpage := sub 0 true true false false p

/-- The fields `f.*` of a write. -/
def fields (vpn mask : Word) (asid : Nat) (g : Bool) (s0 s1 : Subpage) : EntryFields :=
  { vpn := vpn, mask := mask, asid := asid, g := g, sub0 := s0, sub1 := s1 }

/-- Entry A of 95_test_vectors.md 2.1, as presented. -/
def fieldsA : EntryFields :=
  fields 0x00400ABC 0x1FFF 5 false (sub 3 true true false false 0x12345) (sub 3 true false true false 0x12346)

/-- A stored entry. -/
def stored (vpn mask : Word) (asid : Nat) (g ei : Bool) (s0 s1 : Subpage) : Entry :=
  { vpn := vpn, pageMask := mask, asid := asid, g := g, ei := ei, sub0 := s0, sub1 := s1 }

/-- Entry A as stored. -/
def entryA : Entry := stored 0x00400000 0x1FFF 5 false false fieldsA.sub0 fieldsA.sub1

/-- The state after reset with the first entries replaced. -/
def stateOf (c : Config) (es : List Entry) : State :=
  { State.resetOf c with
    store := { entries := es ++ List.replicate (c.ntlb - es.length) Entry.blank
               liveCount := c.ntlb, strategy := c.strategy } }

/-- The state with entry A at index 0. -/
def stateA : State := stateOf Config.vectors [entryA]

/-- Two live copies of entry A, which no run reaches (vector X8). -/
def stateAA : State := stateOf Config.vectors [entryA, entryA]

/-- Four 4 KB pairs of vector M4. -/
def stateM4 : State :=
  stateOf Config.vectors
    [stored 0x00400000 0x1FFF 5 false false (plain 0x100) (plain 0x101),
     stored 0x00402000 0x1FFF 5 false false (plain 0x102) (plain 0x103),
     stored 0x00404000 0x1FFF 6 false false (plain 0x104) (plain 0x105),
     stored 0x00406000 0x1FFF 7 true false (plain 0x106) (plain 0x107)]

/-- The state of vector M7 before its last command: entry 0 invalid and stale. -/
def stateM7 : State :=
  stateOf Config.vectors
    [stored 0x00400000 0x7FFF 5 false true (plain 0) (plain 0),
     stored 0x00402000 0x1FFF 5 false false (plain 0) (plain 0),
     stored 0x00404000 0x1FFF 6 false false (plain 0) (plain 0)]

/-- Strategy None. -/
def configNone : Config := { Config.vectors with strategy := .none }

/-- Strategy Fixed with the two windows of 95_test_vectors.md 2.2. -/
def configFixed : Config :=
  { Config.vectors with
    strategy := .fixed
    fixedWindows := [{ vbase := 0x80000000, vsize := 0x20000000, pbase := 0 },
                     { vbase := 0x90000000, vsize := 0x00001000, pbase := 0xF00000000 }] }

/-- A 64-bit datapath. -/
def config64 : Config := { Config.vectors with vaw := .w64 }

/-- The response of a command. -/
def response (i : Instr) (s : State) : Option Response :=
  match exec i s with
  | .next t    => t.rsp
  | .fault _   => none
  | .refused _ => none

/-- The entries after a command. -/
def entriesAfter (i : Instr) (s : State) : List Entry :=
  match exec i s with
  | .next t    => t.store.entries
  | .fault _   => []
  | .refused _ => []

/-- The EntryInvalid bits after a command. -/
def eisAfter (i : Instr) (s : State) : List Bool := (entriesAfter i s).map (·.ei)

/-- HFLAGS and PAMASK after DERIVE, for the inputs given. -/
def derived (c : Config) (cr : ControlRegs) (dm : Bool) : Option (BitVec 16 × Word) :=
  match exec .derive { State.resetOf c with cr := cr, dm := dm } with
  | .next t    => some (t.hflags, t.pamask)
  | .fault _   => none
  | .refused _ => none

/-- A translated response. -/
def okXlate (pa : Word) (perms : BitVec 3) : Option Response := some (Response.translated pa perms)

/-- A move of the environment that presents a record, the reset input released. -/
def present (r : CmdRecord) : EnvMove := { rst := false, cr := ControlRegs.zero, dm := false, cmd := some r }

/-! ### WellFormed: each check refuses an ill-formed term (30_encoding.md R80) -/

theorem test_illFormed_xlate_va : Instr.wellFormed Config.vectors (.xlate 0x100000000 .read 0) = false := by decide
theorem test_illFormed_xlate_asid : Instr.wellFormed Config.vectors (.xlate 0 .read 256) = false := by decide
theorem test_illFormed_tlbp_va : Instr.wellFormed Config.vectors (.tlbp 0x100000000 0) = false := by decide
theorem test_illFormed_tlbp_asid : Instr.wellFormed Config.vectors (.tlbp 0 256) = false := by decide
theorem test_illFormed_vpn :
    Instr.wellFormed Config.vectors (.tlbwi 0 { fieldsA with vpn := 0x100000000 }) = false := by decide
theorem test_illFormed_mask :
    Instr.wellFormed Config.vectors (.tlbwi 0 { fieldsA with mask := 0x100000000 }) = false := by decide
theorem test_illFormed_asid :
    Instr.wellFormed Config.vectors (.tlbwr 0 0 { fieldsA with asid := 256 }) = false := by decide
theorem test_illFormed_cacheability :
    Instr.wellFormed Config.vectors (.tlbwr 0 0 { fieldsA with sub0 := { plain 0 with c := 8 } }) = false := by decide
theorem test_illFormed_pfn :
    Instr.wellFormed Config.vectors (.tlbwi 0 { fieldsA with sub1 := plain 0x10000000 }) = false := by decide
theorem test_wellFormed_boundary :
    Instr.wellFormed Config.vectors (.xlate 0xFFFFFFFF .reserved 255) = true
      ∧ Instr.wellFormed Config.vectors
          (.tlbwi 0xFFFFFFFF { fieldsA with asid := 255, sub1 := { plain 0xFFFFFFF with c := 7 } }) = true := by decide

/-- Each constraint of R5 and R7 refuses a configuration. -/
theorem test_illFormed_config :
    Config.wf { Config.vectors with ntlb := 0 } = false ∧ Config.wf { Config.vectors with pg := 0 } = false
      ∧ Config.wf { Config.vectors with pg := 32 } = false ∧ Config.wf { Config.vectors with asidw := 0 } = false
      ∧ Config.wf { Config.vectors with cw := 0 } = false ∧ Config.wf { Config.vectors with pabitsBase := 12 } = false
      ∧ Config.wf { Config.vectors with pabitsBase := 41 } = false
      ∧ Config.wf { Config.vectors with pabitsExt := 65 } = false := by decide
theorem test_illFormed_window :
    Config.wf { configFixed with fixedWindows := [{ vbase := 0, vsize := 0, pbase := 0 }] } = false
      ∧ Config.wf { configFixed with fixedWindows := [{ vbase := 0xFFFFFFFF, vsize := 2, pbase := 0 }] } = false
      ∧ Config.wf { configFixed with fixedWindows := [{ vbase := 0xFFFFFFFF, vsize := 1, pbase := 2 ^ 40 }] } = false
      ∧ Config.wf { configFixed with fixedWindows := [{ vbase := 0xFFFFFFFF, vsize := 1, pbase := 0 }] } = true := by
  decide

/-! ### Decoding: records written out bit by bit from 30_encoding.md R80, R82, R92 -/

theorem test_decode_xlate_read :
    decodeWord Config.vectors 0x401002af005000000000000000000000000000000000000000000000000000000000000
      = .ok (.xlate 0x00400ABC .read 5) := by decide
theorem test_decode_xlate_write :
    decodeWord Config.vectors 0x401006af105000000000000000000000000000000000000000000000000000000000000
      = .ok (.xlate 0x00401ABC .write 5) := by decide
theorem test_decode_xlate_execute :
    decodeWord Config.vectors 0x401006af205000000000000000000000000000000000000000000000000000000000000
      = .ok (.xlate 0x00401ABC .execute 5) := by decide
theorem test_decode_xlate_reserved_kind :
    decodeWord Config.vectors 0x7ffffffffff000000000000000000000000000000000000000000000000000000000000
      = .ok (.xlate 0xFFFFFFFF .reserved 255) := by decide
theorem test_decode_xlate_64 :
    decodeWord config64
        0x7fffffffe00004002070000000000000000000000000000000000000000000000000000000000000000000000000000
      = .ok (.xlate 0xFFFFFFFF80001000 .execute 7) := by decide
theorem test_decode_tlbwi :
    decodeWord Config.vectors 0x800000000000000000000000000000000000020055e00000fff829e00091a2ba0012346
      = .ok (.tlbwi 0 fieldsA) := by decide
theorem test_decode_tlbwr :
    decodeWord Config.vectors 0xc00000000000000000000000001000000028020055e00000fff829e00091a2ba0012346
      = .ok (.tlbwr 2 5 fieldsA) := by decide
theorem test_decode_tlbp :
    decodeWord Config.vectors 0x1001006af005000000000000000000000000000000000000000000000000000000000000
      = .ok (.tlbp 0x00401ABC 5) := by decide
theorem test_decode_tlbr :
    decodeWord Config.vectors 0x140000000000800000070000000000000000000000000000000000000000000000000000
      = .ok (.tlbr 0x80000007) := by decide
theorem test_decode_tlbinv :
    decodeWord Config.vectors 0x180000000000ffffffff8000000000000000000000000000000000000000000000000000
      = .ok (.tlbinv 0xFFFFFFFF true) := by decide
theorem test_decode_tlbflush :
    decodeWord Config.vectors 0x1c0000000000000000000000000000000000000000000000000000000000000000000000
      = .ok .tlbflush := by decide
theorem test_decode_derive :
    decodeWord Config.vectors 0x200000000000000000000000000000000000000000000000000000000000000000000000
      = .ok .derive := by decide
theorem test_decode_reserved :
    decodeWord Config.vectors 0 = .error (.reservedOpcode 0)
      ∧ decodeWord Config.vectors 0x240000000000000000000000000000000000000000000000000000000000000000000000
          = .error (.reservedOpcode 9)
      ∧ decodeWord Config.vectors 0x3c0000000000000000000000000000000000000000000000000000000000000000000000
          = .error (.reservedOpcode 15) := by decide

/-- The record of the spec's examples has 286 bits and, with a 64-bit datapath, 382. -/
theorem test_recordBits : recordBits Config.vectors = 286 ∧ recordBits config64 = 382 := by decide

/-- The opcode table's words, the operand bits zero. -/
theorem test_decodeTableWord :
    decodeTableWord 8 1 = some (.xlate 0 .read 0) ∧ decodeTableWord 8 2 = some (.tlbwi 0 EntryFields.zero)
      ∧ decodeTableWord 8 3 = some (.tlbwr 0 0 EntryFields.zero) ∧ decodeTableWord 8 4 = some (.tlbp 0 0)
      ∧ decodeTableWord 8 5 = some (.tlbr 0) ∧ decodeTableWord 8 6 = some (.tlbinv 0 false)
      ∧ decodeTableWord 8 7 = some .tlbflush ∧ decodeTableWord 8 8 = some .derive := by decide
theorem test_decodeTableWord_reserved :
    decodeTableWord 8 0 = none ∧ decodeTableWord 8 9 = none ∧ decodeTableWord 8 15 = none := by decide

/-- The first step after reset runs the command placed there: an XLATE of the empty TLB (70_reset R216). -/
theorem test_step_withFetchWord :
    (match step (State.reset.withFetchWord 8 1) with
      | .next t    => t.rsp
      | .fault _   => none
      | .refused _ => none) = some (Response.bare (.miss .refill)) := by decide

/-! ### One step per command, expected results from spec/95_test_vectors.md -/

/-- X2, first line: the odd subpage. -/
theorem test_xlate_odd : response (.xlate 0x00401ABC .read 5) stateA = okXlate 0x12346ABC 0b001 := by decide
/-- X5: a 16 MB global pair, PFN bits below the page size dropped. -/
theorem test_xlate_large :
    response (.xlate 0x40234567 .read 77)
        (stateOf Config.vectors
          [stored 0x40000000 0x1FFFFFF 0 true false (sub 2 true true false false 0x80123)
            (sub 2 true true false false 0x90000)])
      = okXlate 0x80234567 0b111 := by decide
/-- P1 step 1: the VPN is stored masked. -/
theorem test_tlbwi_masks : entriesAfter (.tlbwi 0 fieldsA) State.reset = stateA.store.entries := by decide
/-- M4: a 16 KB pair for ASID 5 evicts the same ASID and the global entry, not ASID 6. -/
theorem test_tlbwi_overlap :
    eisAfter (.tlbwi 4 (fields 0x00403000 0x7FFF 5 false (plain 0x200) (plain 0x204))) stateM4
      = [true, true, false, true, false, true, true, true] := by decide
/-- M5: `2 + (0xFFFFFFFF mod 6) = 5`. -/
theorem test_tlbwr_victim : response (.tlbwr 2 0xFFFFFFFF fieldsA) State.reset = some (Response.index 5) := by decide
/-- M5: no victim when every entry is wired. -/
theorem test_tlbwr_noVictim : response (.tlbwr 8 0 fieldsA) State.reset = some (Response.bare (.err .noVictim)) := by
  decide
/-- M1: the last byte of the span. -/
theorem test_tlbp_found : response (.tlbp 0x00401FFF 5) stateA = some (Response.index 0) := by decide
/-- M1: the first byte past it. -/
theorem test_tlbp_notFound : response (.tlbp 0x00402000 5) stateA = some (Response.bare .notFound) := by decide
/-- M2: the entry as stored. -/
theorem test_tlbr_entry : response (.tlbr 0) stateA = some (Response.entry 0 entryA) := by decide
/-- M9: the first illegal index. -/
theorem test_tlbr_outOfRange : response (.tlbr 8) stateA = some (Response.bare (.err .indexOutOfRange)) := by decide
/-- M7: the stale span invalidates entry 1 (ASID 5) and not entry 2 (ASID 6). -/
theorem test_tlbinv_extended :
    eisAfter (.tlbinv 0 true) stateM7 = [true, true, false, true, true, true, true, true] := by decide
/-- M6: the fields of the invalidated entry stay. -/
theorem test_tlbinv_keeps :
    (entriesAfter (.tlbinv 0 false) stateA).head? = some { entryA with ei := true } := by decide
/-- M8: every entry, the global one included. -/
theorem test_tlbflush : eisAfter .tlbflush stateM4 = List.replicate 8 true := by decide
/-- H1. -/
theorem test_derive_h1 :
    derived Config.vectors
        { ControlRegs.zero with
          status := { ControlRegs.zero.status with ksu := 2, cu1 := true, fr := true }
          fpir := { f64 := true, frep := false } } false
      = some (0x08C2, 0x0FFFFFFFFF) := by decide
/-- H43: every flag but ERL and AWRAP. -/
theorem test_derive_h43 :
    derived { config64 with caps := { isa64 := true, r2 := true, r6 := false, m32 := true, mips4 := true
                                      dsp := true, dspr2 := true, msa := true } }
        { ControlRegs.zero with
          status := { ControlRegs.zero.status with
                      ksu := 2, ux := true, cu0 := true, cu1 := true, fr := true, mx := true }
          config5 := { sbri := true, msaEn := true, fre := true }, fpir := { f64 := true, frep := true }
          config3 := { veic := false, lpa := true }, pageGrain := { elpa := true } } false
      = some (0x7FEA, 0xFFFFFFFFFF) := by decide
/-- P4 step 3: the flags are stale until the next DERIVE. -/
theorem test_step_stale :
    (match step { State.reset with
        hflags := 0x08C2
        env := [{ rst := false, dm := true, cmd := none
                  cr := { ControlRegs.zero with status := { ControlRegs.zero.status with exl := true } } }] } with
      | .next t    => some (t.hflags, t.cr.status.exl, t.dm)
      | .fault _   => none
      | .refused _ => none) = some (0x08C2, true, true) := by decide
/-- I8, I9: the two controller semantics differ. -/
theorem test_irqPending :
    let vectored (v : Bool) (ip im : BitVec 8) : Bool :=
      State.irqPending { State.reset with
        cr := { ControlRegs.zero with
                status := { ControlRegs.zero.status with im := im }, cause := { ip := ip }
                config3 := { veic := v, lpa := false } } }
    vectored true 0x80 0x7F = true ∧ vectored false 0x80 0x7F = false
      ∧ vectored true 0x04 0x0C = false ∧ vectored false 0x04 0x0C = true := by decide
/-- R199: rounding field 3 rounds toward minus infinity. -/
theorem test_rounding : RmTable.mode Config.conventionalRm 3 = .towardMinus := by decide

/-! ### Textual syntax (30_encoding.md R90) -/

theorem test_text_xlate : readInstr "XLATE R, 0x00400ABC, 5".toList = some (.xlate 0x00400ABC .read 5) := by decide
theorem test_text_tlbwi :
    readInstr ("TLBWI 0, 0x00400ABC, 0x1FFF, 5, 0, ".toList ++ openBrace :: "3,1,1,0,0,0x12345".toList
        ++ closeBrace :: ", ".toList ++ openBrace :: "3,1,0,1,0,0x12346".toList ++ [closeBrace])
      = some (.tlbwi 0 fieldsA) := by decide
theorem test_text_flush :
    readInstr "TLBFLUSH".toList = some .tlbflush ∧ readInstr "TLBFLUSH 0".toList = none := by decide
theorem test_text_reads_back :
    readInstr (writeInstr (.tlbwr 2 0xFFFFFFFF fieldsA)) = some (.tlbwr 2 0xFFFFFFFF fieldsA) := by decide
theorem test_text_response :
    writeResponse Config.vectors (Response.translated 0x12345ABC 0b111)
      = "-> OK pa=0x0012345ABC perms=0b111".toList := by decide

/-! ### Witnesses: states and operands that meet the hypotheses of the statements -/

/-- Entry A's mask is that of a 4 KB page. -/
theorem maskA : MaskOfShift Config.vectors 0x1FFF 12 := by unfold MaskOfShift; decide

/-- The state with entry A satisfies the invariant. -/
theorem stateA_inv : stateA.Inv :=
  { shape := ⟨by decide, by decide, by decide, by decide, by decide, by decide⟩
    vpn := by unfold State.InvVpn; decide
    overlap := by unfold State.InvOverlap; decide }

/-- Entry A is the one match of an address of its span. -/
theorem stateA_unique (va : Word) (h : va = 0x00400ABC ∨ va = 0x00401ABC) : stateA.UniqueHit va 5 0 := by
  rcases h with rfl | rfl <;> unfold State.UniqueHit <;> decide

/-- No entry of it matches past its span. -/
theorem stateA_noHit : stateA.NoHit 0x00402000 5 := by unfold State.NoHit; decide

theorem reset_isReset : State.reset.IsReset :=
  ⟨⟨by decide, by decide, by decide, by decide, by decide, by decide⟩, by decide⟩

/-- Every clause of OpcodeSelectsTheCommand, the reserved range at both its ends. -/
theorem witness_OpcodeSelectsTheCommand :
    (∀ k : BitVec 4, (CmdRecord.zero k).op = k) ∧ (CmdRecord.zero 0x0).op = 0x0 ∧ 0x9 ≤ (CmdRecord.zero 0x9).op.toNat
      ∧ 0x9 ≤ (CmdRecord.zero 0xF).op.toNat := by decide

/-- Two different records that agree on what TLBR reads. -/
theorem witness_IgnoredSignalsDoNotMatter :
    ∃ r q : CmdRecord, r ≠ q ∧ r.op = q.op ∧ r.op = 0x5 ∧ r.index = q.index :=
  ⟨CmdRecord.zero 5, { CmdRecord.zero 5 with va := 1 }, by decide⟩

theorem witness_DecodedCommandsAreWellFormed :
    decodeWord Config.vectors 0x200000000000000000000000000000000000000000000000000000000000000000000001
      = .ok .derive := by decide

theorem witness_DecodeOfEncodeIsTheCommand :
    Config.vectors.wf = true ∧ Instr.wellFormed Config.vectors (.tlbwr 0xFFFFFFFF 0xFFFFFFFF
      (fields 0xFFFFFFFF 0xFFFFFFFF 255 true (sub 7 true true true true 0xFFFFFFF) (plain 0))) = true := by decide

theorem witness_StepRunsTheDecodedCommand :
    ∃ (s : State) (m : EnvMove) (rest : List EnvMove) (r : CmdRecord),
      s.env = m :: rest ∧ m.rst = false ∧ m.cmd = some r ∧ decode s.cfg r = .ok .derive :=
  ⟨{ State.reset with env := [present (CmdRecord.zero 8)] }, present (CmdRecord.zero 8), [], CmdRecord.zero 8,
    by decide⟩

theorem witness_StateHoldsWithoutCommand :
    State.reset.env = [] ∧ ∃ (s : State) (m : EnvMove), s.env = [m] ∧ m.rst = false ∧ m.cmd = none :=
  ⟨rfl, { State.reset with env := [{ rst := false, cr := ControlRegs.zero, dm := true, cmd := none }] }, _, rfl, rfl,
    rfl⟩

theorem witness_ReservedOpcodeIsAnswered :
    ∃ (s : State) (m : EnvMove) (r : CmdRecord),
      s.env = [m] ∧ m.rst = false ∧ m.cmd = some r ∧ (r.op = 0x0 ∨ 0x9 ≤ r.op.toNat) :=
  ⟨{ State.reset with env := [present (CmdRecord.zero 9)] }, present (CmdRecord.zero 9), CmdRecord.zero 9, by decide⟩

theorem witness_ResetInputLeavesAResetState :
    ∃ (s : State) (m : EnvMove), s.cfg.wf = true ∧ s.env = [m] ∧ m.rst = true :=
  ⟨{ stateA with env := [{ rst := true, cr := ControlRegs.zero, dm := false, cmd := none }] }, _, by decide, rfl, rfl⟩

theorem witness_ResetStateIsAllowed : config64.wf = true ∧ configFixed.wf = true := by decide

theorem witness_EmptyTlbMissesEverything :
    State.reset.IsReset ∧ State.reset.store.strategy = .softwareRefill ∧ AccessKind.write ≠ .reserved :=
  ⟨reset_isReset, by decide⟩

theorem witness_ResetMeetsTheInvariant : State.reset.IsReset := reset_isReset

theorem witness_EveryStepKeepsTheInvariant : stateA.Inv ∧ ∃ t, step stateA = .next t := ⟨stateA_inv, _, rfl⟩

theorem witness_LookupsAreUnique :
    stateA.Inv ∧ 0 < stateA.cfg.ntlb ∧ stateA.store.hit 0x00400ABC 5 0 = true := ⟨stateA_inv, by decide⟩

/-- A step that runs a lookup with a match. -/
theorem witness_NoStepRecordsAFatal :
    ∃ s t : State, s.Inv ∧ s.Safe ∧ step s = .next t ∧ t.rsp = some (Response.index 0) :=
  ⟨{ stateA with env := [present { CmdRecord.zero 4 with va := 0x00400ABC, asid := 5 }] }, _,
    ⟨⟨by decide, by decide, by decide, by decide, by decide, by decide⟩, stateA_inv.vpn, stateA_inv.overlap⟩,
    rfl, rfl, by decide⟩

/-- Both truth values, at both ends of the span. -/
theorem witness_EntriesMatchTheirPairSpan :
    stateA.Inv ∧ 0 < stateA.cfg.ntlb ∧ stateA.store.hit 0x00400000 5 0 = true
      ∧ stateA.store.hit 0x00401FFF 5 0 = true ∧ stateA.store.hit 0x003FFFFF 5 0 = false
      ∧ stateA.store.hit 0x00402000 5 0 = false := ⟨stateA_inv, by decide⟩

theorem witness_RangeOverlapMeansACommonAddress :
    MaskOfShift Config.vectors 0x7FFF 14 ∧ MaskOfShift Config.vectors 0x1FFF 12
      ∧ (0x00400000 : Word) &&& 0x7FFF = 0 ∧ (0x00404000 : Word) &&& 0x1FFF = 0
      ∧ rangeOverlap 0x00400000 0x7FFF 0x00404000 0x1FFF = true
      ∧ rangeOverlap 0x00400000 0x7FFF 0x00408000 0x1FFF = false := by unfold MaskOfShift; decide

theorem witness_IdentityTranslation :
    (stateOf configNone []).store.strategy = .none ∧ AccessKind.execute ≠ .reserved := by decide

/-- The first clause with an empty and with a longer prefix, at the first and the last byte of a window; the second
clause outside every window. -/
theorem witness_FixedWindowTranslation :
    (stateOf configFixed []).store.strategy = .fixed
      ∧ (∃ w after, configFixed.fixedWindows = [] ++ w :: after ∧ w.vbase ≤ (0x9FFFFFFF : Word).toNat
          ∧ (0x9FFFFFFF : Word).toNat - w.vbase < w.vsize ∧ w.vbase ≤ (0x80000000 : Word).toNat)
      ∧ (∃ u w, ({ configFixed with fixedWindows := configFixed.fixedWindows.reverse } : Config).fixedWindows = [u] ++ [w]
          ∧ ¬(u.vbase ≤ (0x80001234 : Word).toNat ∧ (0x80001234 : Word).toNat - u.vbase < u.vsize)
          ∧ w.vbase ≤ (0x80001234 : Word).toNat ∧ (0x80001234 : Word).toNat - w.vbase < w.vsize)
      ∧ ∀ u ∈ configFixed.fixedWindows,
          ¬(u.vbase ≤ (0xA0000000 : Word).toNat ∧ (0xA0000000 : Word).toNat - u.vbase < u.vsize) :=
  ⟨by decide, ⟨_, _, rfl, by decide⟩, ⟨_, _, rfl, by decide⟩, by decide⟩

theorem witness_NoMatchIsARefillMiss :
    stateA.store.strategy = .softwareRefill ∧ stateA.NoHit 0x00402000 5 := ⟨by decide, stateA_noHit⟩

theorem witness_DuplicateMatchIsFatal :
    1 < stateAA.cfg.ntlb ∧ stateAA.store.hit 0x00400ABC 5 0 = true ∧ stateAA.store.hit 0x00400ABC 5 1 = true
      ∧ stateAA.store.strategy = .softwareRefill := by decide

/-- A state whose entry 0 is entry A with another odd record. -/
def stateOdd (r : Subpage) : State := stateOf Config.vectors [{ entryA with sub1 := r }]

/-- Every clause of ChecksDecideInOrder: the odd record is selected, and is invalid; clean; execute-inhibited;
read-inhibited, with the switch set. -/
theorem witness_ChecksDecideInOrder (r : Subpage)
    (hr : r = sub 0 false false true true 2 ∨ r = sub 0 true false false false 4 ∨ r = sub 0 true true true false 4
      ∨ r = sub 0 true false false true 3) :
    (stateOdd r).store.strategy = .softwareRefill ∧ (stateOdd r).UniqueHit 0x00401ABC 5 0
      ∧ MaskOfShift (stateOdd r).cfg ((stateOdd r).store.entry 0).pageMask 12
      ∧ r = (if (0x00401ABC : Word).getLsbD 12 then ((stateOdd r).store.entry 0).sub1
          else ((stateOdd r).store.entry 0).sub0)
      ∧ (stateOdd r).cfg.riBlocksExecute = true := by
  rcases hr with rfl | rfl | rfl | rfl <;> unfold State.UniqueHit MaskOfShift <;> decide

theorem witness_TranslationConcatenatesFrameAndOffset :
    stateA.Shape ∧ stateA.store.strategy = .softwareRefill ∧ stateA.UniqueHit 0x00400ABC 5 0
      ∧ MaskOfShift stateA.cfg (stateA.store.entry 0).pageMask 12
      ∧ fieldsA.sub0 = (if (0x00400ABC : Word).getLsbD 12 then (stateA.store.entry 0).sub1
          else (stateA.store.entry 0).sub0)
      ∧ Allows stateA.cfg fieldsA.sub0 .read ∧ Allows stateA.cfg fieldsA.sub0 .write
      ∧ Allows stateA.cfg fieldsA.sub0 .execute :=
  ⟨stateA_inv.shape, by decide, stateA_unique _ (.inl rfl), maskA, by decide, by unfold Allows; decide,
    by unfold Allows; decide, by unfold Allows; decide⟩

theorem witness_PermissionsSayWhichAccessesSucceed :
    ∃ t r, exec (.xlate 0x00401ABC .read 5) stateA = .next t ∧ t.rsp = some r ∧ r.perms = some 0b001 :=
  ⟨_, _, rfl, rfl, by decide⟩

theorem witness_TranslationKeepsThePageOffset :
    stateA.Inv ∧ stateA.store.strategy = .softwareRefill
      ∧ ∃ t r, exec (.xlate 0x00401ABC .read 5) stateA = .next t ∧ t.rsp = some r ∧ r.pa = some 0x12346ABC :=
  ⟨stateA_inv, by decide, _, _, rfl, rfl, by decide⟩

theorem witness_LookupsArePure :
    (∃ t, exec (.xlate 0x00400ABC .write 5) stateA = .next t) ∧ (∃ t, exec (.tlbp 0x00400ABC 5) stateA = .next t)
      ∧ ∃ t, exec (.tlbr 7) stateA = .next t := ⟨⟨_, rfl⟩, ⟨_, rfl⟩, ⟨_, rfl⟩⟩

/-- Two states that differ in the flags and the inputs only. -/
theorem witness_TlbCommandsIgnoreFlagsAndControl :
    ∃ s s' t t' : State, Instr.tlbflush ≠ .derive ∧ s.cfg = s'.cfg ∧ s.store = s'.store ∧ s.hflags ≠ s'.hflags
      ∧ s.dm ≠ s'.dm ∧ exec .tlbflush s = .next t ∧ exec .tlbflush s' = .next t' :=
  ⟨stateA, { stateA with hflags := 2, dm := true }, _, _, by decide, rfl, rfl, by decide, by decide, rfl, rfl⟩

/-- The last legal index, the smallest and the largest page size. -/
theorem witness_WriteIndexedInstalls :
    stateA.Shape ∧ (7 : IndexWord).toNat < stateA.cfg.ntlb ∧ MaskOfShift stateA.cfg fieldsA.mask 12
      ∧ MaskOfShift stateA.cfg 0xFFFFFFFF 31 := ⟨stateA_inv.shape, by decide, maskA, by unfold MaskOfShift; decide⟩

theorem witness_WriteRandomInstallsAtTheVictim :
    stateA.Shape ∧ (7 : IndexWord).toNat < stateA.cfg.ntlb ∧ MaskOfShift stateA.cfg fieldsA.mask 12 :=
  ⟨stateA_inv.shape, by decide, maskA⟩

/-- M3: no page size below PG, and no other form. -/
theorem witness_IllFormedMaskIsRefused :
    (¬∃ k, MaskOfShift stateA.cfg 0xFFF k) ∧ (¬∃ k, MaskOfShift stateA.cfg 0x5FFF k)
      ∧ (0 : IndexWord).toNat < stateA.cfg.ntlb := by
  simp only [← wfMask_eq_false_iff]; decide

theorem witness_OutOfRangeIndexIsSurfaced :
    stateA.cfg.ntlb ≤ (8 : IndexWord).toNat ∧ stateA.cfg.ntlb ≤ (0xFFFFFFFF : IndexWord).toNat := by decide

theorem witness_NoVictimWhenEveryEntryIsWired : stateA.cfg.ntlb ≤ (8 : IndexWord).toNat := by decide

/-- A TLBWR that overlaps the wired entry 0. -/
theorem witness_WiredEntriesAreNotVictims :
    ∃ t, exec (.tlbwr 1 0 fieldsA) stateA = .next t ∧ 0 < (1 : IndexWord).toNat ∧ (t.store.entry 0).ei = true :=
  ⟨_, rfl, by decide⟩

/-- Both clauses. -/
theorem witness_ProbeFindsTheMatch :
    stateA.NoHit 0x00402000 5 ∧ stateA.UniqueHit 0x00401ABC 5 (0 : IndexWord).toNat :=
  ⟨stateA_noHit, stateA_unique _ (.inr rfl)⟩

theorem witness_ReadReturnsTheEntry : (7 : IndexWord).toNat < stateA.cfg.ntlb := by decide

/-- Vector M7: with `ext`, entry 1 is a sibling and entry 2 is not. -/
theorem witness_InvalidateMarksTheEntry :
    stateM7.Shape ∧ (0 : IndexWord).toNat < stateM7.cfg.ntlb
      ∧ MaskOfShift stateM7.cfg (stateM7.store.entry 0).pageMask 14
      ∧ stateM7.store.Overlapping 0x00400000 0x7FFF false 5 1
      ∧ ¬stateM7.store.Overlapping 0x00400000 0x7FFF false 5 2 :=
  ⟨⟨by decide, by decide, by decide, by decide, by decide, by decide⟩, by decide, by unfold MaskOfShift; decide,
    by unfold Store.Overlapping; decide, by unfold Store.Overlapping; decide⟩

theorem witness_FlushMarksEveryEntry : stateA.Shape := stateA_inv.shape

theorem witness_InvalidationChangesOnlyEntryInvalid :
    (∃ t, exec (.tlbinv 0 true) stateM7 = .next t) ∧ (stateM7.store.entry 0).ei = true
      ∧ ∃ t, exec .tlbflush stateM7 = .next t := ⟨⟨_, rfl⟩, by decide, ⟨_, rfl⟩⟩

/-- A TLBWI and a TLBWR that answer OK, the last address of the span, and a global write for the any-ASID clause. -/
theorem witness_WriteThenProbeFindsTheIndex :
    stateA.Inv
      ∧ (∃ t r, exec (.tlbwi 7 fieldsA) stateA = .next t ∧ t.rsp = some r ∧ r.status = .ok ∧ r.rIndex = some 7)
      ∧ (∃ t r, exec (.tlbwr 2 5 fieldsA) stateA = .next t ∧ t.rsp = some r ∧ r.status = .ok ∧ r.rIndex = some 7)
      ∧ (∃ t r, exec (.tlbwi 7 { fieldsA with g := true }) stateA = .next t ∧ t.rsp = some r ∧ r.status = .ok
          ∧ r.rIndex = some 7)
      ∧ ({ fieldsA with g := true } : EntryFields).g = true ∧ fieldsA.asid ≠ 6
      ∧ (0x00401FFF : Word) &&& ~~~fieldsA.mask = fieldsA.vpn &&& ~~~fieldsA.mask :=
  ⟨stateA_inv, ⟨_, _, rfl, rfl, by decide⟩, ⟨_, _, rfl, rfl, by decide⟩, ⟨_, _, rfl, rfl, by decide⟩, rfl, by decide,
    by decide⟩

/-- A write that answers Err.MalformedFields among the commands after the flush. -/
theorem witness_FlushThenProbeFindsNothing :
    ∃ t u, exec .tlbflush stateA = .next t
      ∧ RunWithoutWrite [.tlbr 0, .tlbwi 0 { fieldsA with mask := 0xFFF }, .derive] t u := by
  refine ⟨_, _, rfl, _, rfl, fun h => absurd h (by decide), _, rfl, ?_, _, rfl, fun h => absurd h (by decide), rfl⟩
  rintro - ⟨r, h, hr⟩
  cases h
  exact absurd hr (by decide)

theorem witness_FailedCommandsChangeNothing :
    ∃ t r, exec (.tlbwi 8 fieldsA) stateA = .next t ∧ t.rsp = some r ∧ r.status ≠ .ok := ⟨_, _, rfl, rfl, by decide⟩

theorem witness_EveryCommandKeepsItsFrame :
    (∃ t, exec (.tlbr 0) stateA = .next t) ∧ Instr.tlbr 0 ≠ .derive ∧ isWrite (.tlbr 0) = false
      ∧ Instr.tlbr 0 ≠ .tlbflush ∧ ∀ index ext, Instr.tlbr 0 ≠ .tlbinv index ext :=
  ⟨⟨_, rfl⟩, by decide, rfl, by decide, by simp⟩

theorem witness_RepeatingACommandChangesNothing : ∃ t, exec (.tlbwr 2 5 fieldsA) stateM4 = .next t := ⟨_, rfl⟩

theorem witness_ResultsArePresentExactlyWhereListed : ∃ t, exec (.tlbr 0) stateA = .next t := ⟨_, rfl⟩

theorem witness_StatusCodesFollowTheTable :
    State.reset.rsp = none ∧ ∃ s : State, s.rsp = some (Response.bare .fatal) :=
  ⟨rfl, { State.reset with rsp := some (Response.bare .fatal) }, rfl⟩

/-- Both clauses. -/
theorem witness_DeriveCopiesThePrivilegeLevel :
    (State.reset.cr.status.exl = false ∧ State.reset.cr.status.erl = false ∧ State.reset.dm = false)
      ∧ ∃ s : State, s.dm = true := ⟨by decide, { State.reset with dm := true }, rfl⟩

/-- Both datapaths and, on 64 bits, every combination of the revision capabilities with every level. -/
theorem witness_DeriveAddressingFlags :
    State.reset.cfg.vaw = .w32
      ∧ ∀ (isa64 r6 : Bool) (ksu : BitVec 2), ∃ s t : State, s.cfg.vaw = .w64 ∧ s.cfg.caps.isa64 = isa64
          ∧ s.cfg.caps.r6 = r6 ∧ exec .derive s = .next t ∧ hfPl t.hflags = ksu :=
  ⟨rfl, fun isa64 r6 ksu =>
    ⟨{ State.resetOf { config64 with caps := { config64.caps with isa64 := isa64, r6 := r6 } } with
        cr := { ControlRegs.zero with status := { ControlRegs.zero.status with ksu := ksu } } },
      _, rfl, rfl, rfl, rfl, by revert isa64 r6 ksu; decide⟩⟩

theorem witness_DeriveExtensionFlags :
    State.reset.cr.status.mx = false ∧ State.reset.cfg.caps.dspr2 = false
      ∧ ∃ s : State, s.cr.status.mx = true ∧ s.cfg.caps.dspr2 = true :=
  ⟨rfl, rfl,
    { State.reset with
      cfg := { Config.vectors with caps := { Config.vectors.caps with dspr2 := true } }
      cr := { ControlRegs.zero with status := { ControlRegs.zero.status with mx := true } } }, rfl, rfl⟩

/-- Each of the four lines. -/
theorem witness_DeriveCop1xByRevision :
    ∀ r2 m32 mips4 : Bool, ∃ s : State,
      s.cfg.caps.r2 = r2 ∧ s.cfg.caps.m32 = m32 ∧ s.cfg.caps.mips4 = mips4 :=
  fun r2 m32 mips4 =>
    ⟨State.resetOf { Config.vectors with caps := { Config.vectors.caps with r2 := r2, m32 := m32, mips4 := mips4 } },
      rfl, rfl, rfl⟩

theorem witness_DeriveLatchesThePhysicalMask : State.reset.cfg.wf = true := by decide

/-- H24: two states that differ in inputs DERIVE does not read and in the old flags. -/
theorem witness_DeriveReadsOnlyItsInputs :
    ∃ s s' t t' : State, s.cfg = s'.cfg ∧ s.dm = s'.dm ∧ s.cr.cause ≠ s'.cr.cause ∧ s.hflags ≠ s'.hflags
      ∧ s.cr.status = s'.cr.status ∧ s.cr.config5 = s'.cr.config5 ∧ s.cr.fpir = s'.cr.fpir
      ∧ s.cr.config3 = s'.cr.config3 ∧ s.cr.pageGrain = s'.cr.pageGrain
      ∧ exec .derive s = .next t ∧ exec .derive s' = .next t' :=
  ⟨State.reset, { State.reset with hflags := 0xFFFF, cr := { ControlRegs.zero with cause := { ip := 0xFF } } }, _, _,
    rfl, rfl, by decide, by decide, rfl, rfl, rfl, rfl, rfl, rfl, rfl⟩

theorem witness_FlagsChangeOnlyByDerive :
    ∃ (s t : State) (m : EnvMove) (r : CmdRecord), step s = .next t ∧ s.env = [m] ∧ m.rst = false ∧ m.cmd = some r
      ∧ r.op ≠ 0x8 :=
  ⟨{ stateA with env := [present (CmdRecord.zero 7)] }, _, present (CmdRecord.zero 7), CmdRecord.zero 7, rfl, rfl, rfl,
    rfl, by decide⟩

/-- Both controller semantics. -/
theorem witness_InterruptGateIsExact :
    State.reset.cr.config3.veic = false ∧ ∃ s : State, s.cr.config3.veic = true :=
  ⟨rfl, { State.reset with cr := { ControlRegs.zero with config3 := { veic := true, lpa := false } } }, rfl⟩

theorem witness_FpSynchronisersFollowTheirRegister :
    ∀ rm : BitVec 2, ∃ s : State, s.cr.fcr31.rm = rm ∧ s.cr.msacsr.rm = rm :=
  fun rm =>
    ⟨{ State.reset with
        cr := { ControlRegs.zero with fcr31 := { rm := rm, flags := 0 }, msacsr := { rm := rm, flags := 0 } } },
      rfl, rfl⟩

end Sys2Proof.Tests
end

/-! ### No step stops (00_scope.md R13, 60_exceptions.md R187, R203)

The five ways a step goes are stated once as equations; a guarded command answers on both sides of its guard. -/

namespace Sys2Proof.Machine

open Sys2Proof

/-- R33: with no move left the state holds. -/
theorem step_of_no_move {s : State} (he : s.env = []) : step s = .next s.idle := by
  simp [step, he]

/-- R210: with the reset input asserted no command is accepted. -/
theorem step_of_reset {s : State} {m : EnvMove} {rest : List EnvMove} (he : s.env = m :: rest)
    (hr : m.rst = true) : step s = .next (s.drive m rest).applyReset := by
  simp [step, he, hr]

/-- R33: a move without a command. -/
theorem step_of_no_command {s : State} {m : EnvMove} {rest : List EnvMove} (he : s.env = m :: rest)
    (hr : m.rst = false) (hc : m.cmd = none) : step s = .next (s.drive m rest).idle := by
  simp [step, he, hr, hc]

/-- R87: a record that decodes to no command is answered. -/
theorem step_of_decode_error {s : State} {m : EnvMove} {rest : List EnvMove} {r : CmdRecord} {e : DecodeReject}
    (he : s.env = m :: rest) (hr : m.rst = false) (hc : m.cmd = some r) (hd : decode s.cfg r = .error e) :
    step s = .next (s.drive m rest).illegalCommand := by
  simp [step, he, hr, hc, hd]

/-- R81: a record that decodes to a command is executed on the driven inputs. -/
theorem step_of_decode_ok {s : State} {m : EnvMove} {rest : List EnvMove} {r : CmdRecord} {i : Instr}
    (he : s.env = m :: rest) (hr : m.rst = false) (hc : m.cmd = some r) (hd : decode s.cfg r = .ok i) :
    step s = exec i (s.drive m rest) := by
  simp [step, he, hr, hc, hd]

/-- A guard that chooses between two next states gives a next state. -/
theorem exists_next_of_ite {σ φ ρ : Type} (p : Prop) [Decidable p] (a b : σ) :
    ∃ t, (if p then .next a else .next b : Host.Outcome σ φ ρ) = .next t :=
  ⟨if p then a else b, (apply_ite _ p a b).symm⟩

/-- R187, R203: every command answers. The four that test an index or the number of wired entries answer on
both sides of the test; the other four have no test. -/
theorem exec_gives_next (i : Instr) (s : State) : ∃ t, exec i s = .next t := by
  cases i with
  | xlate va kind asid => exact ⟨s.respond (xlateResponse s va kind asid), rfl⟩
  | tlbwi index f => exact exists_next_of_ite (index.toNat < s.cfg.ntlb) ..
  | tlbwr wired rand f => exact exists_next_of_ite (wired.toNat < s.cfg.ntlb) ..
  | tlbp va asid => exact ⟨s.respond (probeResponse s va asid), rfl⟩
  | tlbr index => exact exists_next_of_ite (index.toNat < s.cfg.ntlb) ..
  | tlbinv index ext => exact exists_next_of_ite (index.toNat < s.cfg.ntlb) ..
  | tlbflush => exact ⟨(s.withStore s.store.flush).respond (Response.bare .ok), rfl⟩
  | derive => exact ⟨_, rfl⟩

/-- R13: every step goes on, whatever the environment's next move is. -/
theorem step_gives_next (s : State) : ∃ t, step s = .next t := by
  cases he : s.env with
  | nil => exact ⟨_, step_of_no_move he⟩
  | cons m rest =>
    cases hr : m.rst with
    | true => exact ⟨_, step_of_reset he hr⟩
    | false =>
      cases hc : m.cmd with
      | none => exact ⟨_, step_of_no_command he hr hc⟩
      | some r =>
        cases hd : decode s.cfg r with
        | error e => exact ⟨_, step_of_decode_error he hr hc hd⟩
        | ok i => rw [step_of_decode_ok he hr hc hd]; exact exec_gives_next i _

/-- Settles O12, by the cases of a step and the arms of `exec`. -/
theorem everyStepGivesANextState : Obligations.EveryStepGivesANextState :=
  ⟨step_gives_next, exec_gives_next⟩

end Sys2Proof.Machine

/-! ### The invariant after reset and the uniqueness of a match (10_state.md R22, R34, R35, R211) -/

namespace Sys2Proof.Machine

open Sys2Proof

/-- R22, R34: both invariants speak of entries that are not EntryInvalid, and a reset state has none. -/
theorem isReset_inv {s : State} (h : s.IsReset) : s.Inv where
  shape := h.shape
  vpn i hi := by simp [Entry.vpnOk, h.invalid i hi]
  overlap i hi _ _ _ hlive _ := by
    have hei := ((live_iff s.store i).1 hlive).2
    simp [h.invalid i hi] at hei

/-- The blank entry's zeros fit every width. -/
theorem blank_fits (c : Config) : Entry.blank.fits c = true := by
  simp [Entry.fits, Entry.blank, Subpage.wellFormed, Subpage.zero]

/-- R211, R212: the model's reset state is one the spec allows, under every legal configuration. -/
theorem resetOf_isReset {c : Config} (hc : c.wf = true) : (State.resetOf c).IsReset where
  shape :=
    { cfgWf := hc
      length := by simp [State.resetOf]
      fits := fun i _ => by rw [resetOf_entry]; exact blank_fits c
      liveCount := rfl
      strategy := rfl
      pamask := Nat.two_pow_pos _ }
  invalid i _ := by rw [resetOf_entry]; rfl

/-- Settles O13: a reset state has no live entry, and the model's reset state is one. -/
theorem resetMeetsTheInvariant : Obligations.ResetMeetsTheInvariant :=
  ⟨fun _ => isReset_inv, isReset_inv (resetOf_isReset (by decide))⟩

/-- Settles O15: two matches of one lookup overlap, which INV-OVERLAP forbids. -/
theorem lookupsAreUnique : Obligations.LookupsAreUnique := by
  intro s va asid i j hInv hi hj hhiti hhitj
  obtain ⟨-, -, hunique⟩ := unique_of_hit hInv.overlap hj hhitj
  exact hunique i hi hhiti

end Sys2Proof.Machine

/-! ### The step with and without a command (10_state.md R33, 30_encoding.md R81) -/

namespace Sys2Proof.Machine

open Sys2Proof

/-- Settles O6: `State.drive` is the update the statement writes out. -/
theorem stepRunsTheDecodedCommand : Obligations.StepRunsTheDecodedCommand :=
  fun _ _ _ _ _ henv hrst hcmd hdecode => step_of_decode_ok henv hrst hcmd hdecode

/-- Settles O7, by the two ways in which a step has no command. -/
theorem stateHoldsWithoutCommand : Obligations.StateHoldsWithoutCommand :=
  fun _ => ⟨step_of_no_move, fun _ _ => step_of_no_command⟩

end Sys2Proof.Machine

/-! ### What a TLB command reads (10_state.md R25, 20_memory.md R76, 60_exceptions.md R191) -/

namespace Sys2Proof.Machine

open Sys2Proof

/-- Two outcomes of a command give the same response and leave the same store. -/
def AnswersAlike (o o' : Host.Outcome State Fault Refusal) : Prop :=
  ∀ t t', o = .next t → o' = .next t' → t.rsp = t'.rsp ∧ t.store = t'.store

theorem answersAlike_next {t t' : State} (hr : t.rsp = t'.rsp) (hs : t.store = t'.store) :
    AnswersAlike (.next t) (.next t') := by
  rintro _ _ ⟨⟩ ⟨⟩
  exact ⟨hr, hs⟩

/-- One response, given in two states with the same store. -/
theorem answersAlike_respond {s s' : State} (hs : s.store = s'.store) (r : Response) :
    AnswersAlike (.next (s.respond r)) (.next (s'.respond r)) :=
  answersAlike_next rfl hs

/-- A guard that both outcomes test. -/
theorem answersAlike_ite {p : Prop} [Decidable p] {a b a' b' : Host.Outcome State Fault Refusal}
    (ha : AnswersAlike a a') (hb : AnswersAlike b b') :
    AnswersAlike (if p then a else b) (if p then a' else b') := by
  split
  · exact ha
  · exact hb

/-- R120: the install step looks at the straps and the store alone. -/
theorem answersAlike_installAt {s s' : State} (hc : s.cfg = s'.cfg) (hs : s.store = s'.store) (n : Nat)
    (f : EntryFields) : AnswersAlike (.next (s.installAt n f)) (.next (s'.installAt n f)) := by
  cases hw : wfMask s.cfg f.mask with
  | false =>
    rw [installAt_of_not_wfMask hw, installAt_of_not_wfMask (hc ▸ hw)]
    exact answersAlike_next rfl hs
  | true =>
    rw [installAt_of_wfMask hw, installAt_of_wfMask (hc ▸ hw)]
    exact answersAlike_next rfl (congrArg (·.install n f) hs)

/-- R76, R191: a TLB command run in two states with the same straps and store. -/
theorem exec_answersAlike {i : Instr} {s s' : State} (hi : i ≠ .derive) (hc : s.cfg = s'.cfg)
    (hs : s.store = s'.store) : AnswersAlike (exec i s) (exec i s') := by
  cases i with
  | xlate va kind asid =>
    simp only [exec, execXlate, xlate_congr hc hs]
    exact answersAlike_respond hs _
  | tlbwi index f =>
    simp only [exec, execTlbwi, ← hc]
    exact answersAlike_ite (answersAlike_installAt hc hs _ _) (answersAlike_respond hs _)
  | tlbwr wired rand f =>
    simp only [exec, execTlbwr, ← hc]
    exact answersAlike_ite (answersAlike_installAt hc hs _ _) (answersAlike_respond hs _)
  | tlbp va asid =>
    simp only [exec, execTlbp, probe_congr hc hs]
    exact answersAlike_respond hs _
  | tlbr index =>
    simp only [exec, execTlbr, ← hc, ← hs]
    exact answersAlike_ite (answersAlike_respond hs _) (answersAlike_respond hs _)
  | tlbinv index ext =>
    simp only [exec, execTlbinv, ← hc, ← hs]
    exact answersAlike_ite (answersAlike_next rfl rfl) (answersAlike_respond hs _)
  | tlbflush => exact answersAlike_next rfl (congrArg Store.flush hs)
  | derive => contradiction

/-- Settles O30, command by command. -/
theorem tlbCommandsIgnoreFlagsAndControl : Obligations.TlbCommandsIgnoreFlagsAndControl :=
  fun _ _ _ t t' hi hc hs => exec_answersAlike hi hc hs t t'

end Sys2Proof.Machine

/-! ### What invalidating changes (10_state.md R23, 41_tlb_maintenance.md R125, R126) -/

namespace Sys2Proof.Machine

open Sys2Proof

/-- R125: TLBINV leaves each entry as it was or invalidates it; past the array there is nothing to write. -/
theorem invalidate_entry_cases (c : Config) (st : Store) (n : Nat) (ext : Bool) (j : Nat) :
    (st.invalidate c n ext).entry j = st.entry j ∨ (st.invalidate c n ext).entry j = (st.entry j).invalidate := by
  by_cases hj : j < st.entries.length
  · rw [invalidate_entry ext hj]
    exact (ite_eq_or_eq ..).symm
  · exact .inl (update_entry_of_le _ (Nat.not_lt.1 hj))

/-- R126: so does TLBFLUSH. -/
theorem flush_entry_cases (st : Store) (j : Nat) :
    st.flush.entry j = st.entry j ∨ st.flush.entry j = (st.entry j).invalidate := by
  by_cases hj : j < st.entries.length
  · exact .inr (flush_entry hj)
  · exact .inl (update_entry_of_le _ (Nat.not_lt.1 hj))

/-- R23: the two invalidating commands leave each entry as it was or invalidate it. -/
theorem exec_invalidating_entry_cases {i : Instr} {s t : State}
    (hi : (∃ index ext, i = .tlbinv index ext) ∨ i = .tlbflush) (h : exec i s = .next t) (j : Nat) :
    t.store.entry j = s.store.entry j ∨ t.store.entry j = (s.store.entry j).invalidate := by
  obtain ⟨index, ext, rfl⟩ | rfl := hi
  · simp only [exec, execTlbinv] at h
    split at h <;> cases h
    · exact invalidate_entry_cases ..
    · exact .inl rfl
  · cases h
    exact flush_entry_cases ..

/-- Settles O41: neither keeping an entry nor invalidating it writes another field or clears EntryInvalid. -/
theorem invalidationChangesOnlyEntryInvalid : Obligations.InvalidationChangesOnlyEntryInvalid := by
  intro i s t j hi h
  obtain hkept | hinvalidated := exec_invalidating_entry_cases hi h j
  · rw [hkept]
    exact ⟨rfl, id⟩
  · rw [hinvalidated]
    exact ⟨rfl, fun _ => rfl⟩

end Sys2Proof.Machine

/-! ### The frame of every command (10_state.md R25 to R29, 42_hflags.md R169) -/

namespace Sys2Proof.Machine

open Sys2Proof

/-- R25: no command writes the straps, the inputs or what is left of the environment's moves. -/
theorem exec_keeps_inputs {i : Instr} {s t : State} (h : exec i s = .next t) :
    t.cfg = s.cfg ∧ t.cr = s.cr ∧ t.dm = s.dm ∧ t.env = s.env ∧ t.draws = s.draws := by
  obtain ⟨r, rfl, -⟩ | ⟨n, f, -, -, -, rfl⟩ | ⟨index, ext, -, -, rfl⟩ | ⟨-, rfl⟩ | ⟨-, rfl⟩ := exec_cases h <;> simp

/-- R28, R29: only DERIVE writes HFLAGS and PAMASK. -/
theorem exec_keeps_flags {i : Instr} {s t : State} (h : exec i s = .next t) (hi : i ≠ .derive) :
    t.hflags = s.hflags ∧ t.pamask = s.pamask := by
  obtain ⟨r, rfl, -⟩ | ⟨n, f, -, -, -, rfl⟩ | ⟨index, ext, -, -, rfl⟩ | ⟨-, rfl⟩ | ⟨rfl, -⟩ := exec_cases h
  case inr.inr.inr.inr => contradiction
  all_goals simp

/-- R26, R27: the commands that write the store keep its size, live count and strategy. -/
theorem exec_sameFrame {i : Instr} {s t : State} (h : exec i s = .next t) : s.store.SameFrame t.store := by
  obtain ⟨r, rfl, -⟩ | ⟨n, f, -, -, -, rfl⟩ | ⟨index, ext, -, -, rfl⟩ | ⟨-, rfl⟩ | ⟨-, rfl⟩ := exec_cases h
  · exact ⟨rfl, rfl, rfl⟩
  · exact install_sameFrame ..
  · exact invalidate_sameFrame ..
  · exact flush_sameFrame _
  · exact ⟨rfl, rfl, rfl⟩

/-- R25: only the two writes, TLBINV and TLBFLUSH write the store. -/
theorem exec_keeps_store {i : Instr} {s t : State} (h : exec i s = .next t) (hw : isWrite i = false)
    (hf : i ≠ .tlbflush) (hv : ∀ index ext, i ≠ .tlbinv index ext) : t.store = s.store := by
  obtain ⟨r, rfl, -⟩ | ⟨n, f, -, -, hi, -⟩ | ⟨index, ext, hi, -, -⟩ | ⟨hi, -⟩ | ⟨-, rfl⟩ := exec_cases h
  · rfl
  · obtain ⟨index, rfl, -⟩ | ⟨wired, rand, rfl, -, -⟩ := hi <;> cases hw
  · exact absurd hi (hv index ext)
  · exact absurd hi hf
  · rfl

/-- Settles O45: the frame of the inputs, of the flags and of the store. -/
theorem everyCommandKeepsItsFrame : Obligations.EveryCommandKeepsItsFrame := by
  intro i s t h
  obtain ⟨hcfg, hcr, hdm, henv, hdraws⟩ := exec_keeps_inputs h
  exact ⟨hcfg, hcr, hdm, henv, hdraws, exec_keeps_flags h, exec_sameFrame h, exec_keeps_store h⟩

/-- R82: 0x8 and no other opcode is DERIVE. -/
theorem decode_eq_derive_iff (c : Config) (r : CmdRecord) : decode c r = .ok .derive ↔ r.op = 0x8 := by
  refine ⟨fun h => ?_, decode_op8⟩
  unfold decode at h
  split at h
  case h_8 hop => exact BitVec.eq_of_toNat_eq hop
  all_goals cases h

/-- Settles O57: of the steps without reset only an executed command can write the flags, and only opcode 0x8
decodes to the one that does. -/
theorem flagsChangeOnlyByDerive : Obligations.FlagsChangeOnlyByDerive := by
  intro s t h hmove
  obtain ⟨-, rfl⟩ | ⟨m, rest, henv, hcase⟩ := step_cases h
  · simp
  · obtain ⟨hrst, hop⟩ := hmove m rest henv
    obtain ⟨hrst', -⟩ | ⟨-, -, rfl⟩ | ⟨r, e, -, -, -, rfl⟩ | ⟨r, i, -, hcmd, hdecode, hexec⟩ := hcase
    · simp [hrst] at hrst'
    · simp
    · simp [State.illegalCommand]
    · have hi : i ≠ .derive := by
        rintro rfl
        exact hop r hcmd ((decode_eq_derive_iff s.cfg r).1 hdecode)
      simpa using exec_keeps_flags hexec hi

end Sys2Proof.Machine

/-! ### Fatal.InternalInconsistency and the two lookups (20_memory.md R68, 60_exceptions.md R184) -/

namespace Sys2Proof.Machine

open Sys2Proof

theorem not_answered_of_no_response {t : State} (h : t.rsp = none) (st : Status) : ¬t.answered st := by
  simp [State.answered, h]

/-- R184: a command answers, and the record gains exactly a Fatal answer. -/
theorem exec_records_its_answer {i : Instr} {s t : State} (h : exec i s = .next t) :
    ∃ r, t.rsp = some r ∧ t.fatalRecorded = (s.fatalRecorded || decide (r.status = .fatal)) := by
  obtain ⟨r, rfl, -⟩ | ⟨n, f, -, -, -, rfl⟩ | ⟨index, ext, -, -, rfl⟩ | ⟨-, rfl⟩ | ⟨-, rfl⟩ := exec_cases h
  all_goals exact ⟨_, rfl, rfl⟩

/-- R35: with no two live entries overlapping, a lookup has no match or one. -/
theorem noHit_or_uniqueHit {s : State} (hI : s.InvOverlap) (va : Word) (asid : Nat) :
    s.NoHit va asid ∨ ∃ i, s.UniqueHit va asid i := by
  by_cases h : ∃ i < s.cfg.ntlb, s.store.hit va asid i = true
  · obtain ⟨i, hi, hhit⟩ := h
    exact .inr ⟨i, unique_of_hit hI hi hhit⟩
  · exact .inl fun i hi => by simpa using fun hhit => h ⟨i, hi, hhit⟩

theorem probeResponse_not_fatal {s : State} (hI : s.InvOverlap) (va : Word) (asid : Nat) :
    (probeResponse s va asid).status ≠ .fatal := by
  obtain hno | ⟨i, hu⟩ := noHit_or_uniqueHit hI va asid
  · simp [probeResponse_of_noHit hno]
  · simp [probeResponse_of_unique hu]

theorem xlateRefill_not_fatal {s : State} (hI : s.InvOverlap) (va : Word) (kind : AccessKind) (asid : Nat) :
    (xlateRefill s va kind asid).status ≠ .fatal := by
  obtain hno | ⟨i, hu⟩ := noHit_or_uniqueHit hI va asid
  · simp [xlateRefill_of_noHit hno]
  · rw [xlateRefill_of_unique hu]
    exact xlateEntry_not_fatal _ _ _ _

theorem xlateFixed_not_fatal (c : Config) (va : Word) : (xlateFixed c va).status ≠ .fatal := by
  unfold xlateFixed
  split <;> simp

theorem xlateResponse_not_fatal {s : State} (hI : s.InvOverlap) (va : Word) (kind : AccessKind) (asid : Nat) :
    (xlateResponse s va kind asid).status ≠ .fatal := by
  unfold xlateResponse
  split
  · simp
  · split
    · simp [xlateNone]
    · exact xlateFixed_not_fatal _ _
    · exact xlateRefill_not_fatal hI _ _ _

/-- R68: with no two live entries overlapping no command answers Fatal; of the five ways a command goes only the
two lookups could. -/
theorem exec_not_answered_fatal {i : Instr} {s t : State} (hI : s.InvOverlap) (h : exec i s = .next t) :
    ¬t.answered .fatal := by
  rintro ⟨r', hrsp, hfatal⟩
  obtain ⟨r, rfl, hr⟩ | ⟨n, f, -, -, -, rfl⟩ | ⟨index, ext, -, -, rfl⟩ | ⟨-, rfl⟩ | ⟨-, rfl⟩ := exec_cases h
  · cases hrsp
    obtain ⟨va, kind, asid, -, rfl⟩ | ⟨va, asid, -, rfl⟩ | ⟨index, -, -, rfl⟩ | ⟨e, rfl⟩ := hr
    · exact xlateResponse_not_fatal hI _ _ _ hfatal
    · exact probeResponse_not_fatal hI _ _ hfatal
    · cases hfatal
    · cases hfatal
  all_goals cases hrsp; cases hfatal

/-- R184: a command that does not answer Fatal leaves the record as it was. -/
theorem exec_keeps_fatalRecorded {i : Instr} {s t : State} (h : exec i s = .next t) (ht : ¬t.answered .fatal) :
    t.fatalRecorded = s.fatalRecorded := by
  obtain ⟨r, hrsp, hrecord⟩ := exec_records_its_answer h
  have hr : r.status ≠ .fatal := fun hfatal => ht ⟨r, hrsp, hfatal⟩
  simpa [hr] using hrecord

/-- Settles O16, by the cases of a step: only an executed command could answer Fatal, and INV-OVERLAP, which the
driven inputs do not touch, rules it out. -/
theorem noStepRecordsAFatal : Obligations.NoStepRecordsAFatal := by
  intro s t hInv hSafe h
  obtain ⟨-, rfl⟩ | ⟨m, rest, -, ⟨-, rfl⟩ | ⟨-, -, rfl⟩ | ⟨r, e, -, -, -, rfl⟩ | ⟨r, i, -, -, -, hexec⟩⟩ :=
    step_cases h
  · exact ⟨not_answered_of_no_response rfl _, hSafe⟩
  · exact ⟨not_answered_of_no_response rfl _, hSafe⟩
  · exact ⟨not_answered_of_no_response rfl _, hSafe⟩
  · exact ⟨by simp [State.answered, State.illegalCommand],
      by simpa [State.Safe, State.illegalCommand] using hSafe⟩
  · have hI : (s.drive m rest).InvOverlap := hInv.overlap
    have hanswer := exec_not_answered_fatal hI hexec
    exact ⟨hanswer, (exec_keeps_fatalRecorded hexec hanswer).trans hSafe⟩

/-- R103: XLATE under SoftwareRefill, of a kind that is not reserved. -/
theorem exec_xlate_refill {s : State} (hs : s.store.strategy = .softwareRefill) {kind : AccessKind}
    (hk : kind ≠ .reserved) (va : Word) (asid : Nat) :
    exec (.xlate va kind asid) s = .next (s.respond (xlateRefill s va kind asid)) := by
  rw [exec, execXlate, xlateResponse_refill hs hk]

/-- Settles O24: with two matches both lookups take their last branch, whose answer also sets the record. -/
theorem duplicateMatchIsFatal : Obligations.DuplicateMatchIsFatal := by
  intro s va kind asid i j hi hj hne hhiti hhitj
  obtain ⟨a, b, l, hhits⟩ :=
    hits_of_two ((mem_hits ..).2 ⟨hi, hhiti⟩) ((mem_hits ..).2 ⟨hj, hhitj⟩) hne
  refine ⟨?_, fun hs hk => ?_⟩
  · rw [exec, execTlbp, probeResponse, hhits]
    exact congrArg _ (respond_of_fatal rfl)
  · rw [exec_xlate_refill hs hk, xlateRefill, hhits]
    exact congrArg _ (respond_of_fatal rfl)

end Sys2Proof.Machine

/-! ### Pair spans and scopes (20_memory.md R58, R60, R66, R67) -/

namespace Sys2Proof.Machine

open Sys2Proof

/-- R60: a hit is a live entry whose masked address is the VPN, in its scope. -/
theorem hit_iff (st : Store) (va : Word) (asid i : Nat) :
    st.hit va asid i = true ↔
      st.live i = true ∧ va &&& ~~~(st.entry i).pageMask = (st.entry i).vpn
        ∧ ((st.entry i).g = true ∨ (st.entry i).asid = asid) := by
  simp [Store.hit, Entry.matches]

/-- R22: INV-VPN of an entry that is not EntryInvalid. -/
theorem vpnOk_of_valid {c : Config} {e : Entry} (h : e.vpnOk c = true) (hei : e.ei = false) :
    (∃ k, MaskOfShift c e.pageMask k) ∧ e.vpn &&& e.pageMask = 0 := by
  simpa [Entry.vpnOk, hei, wfMask_iff] using h

/-- Settles O17: INV-VPN turns the masked comparison of a valid entry into its span. -/
theorem entriesMatchTheirPairSpan : Obligations.EntriesMatchTheirPairSpan := by
  intro s va asid i hInv hi
  have hlive : s.store.live i = true ↔ (s.store.entry i).ei = false := by
    rw [live_iff, hInv.shape.liveCount]
    simp [hi]
  rw [hit_iff, hlive]
  refine and_congr_right fun hei => ?_
  obtain ⟨⟨k, hmask⟩, hvpn⟩ := vpnOk_of_valid (hInv.vpn i hi) hei
  rw [span_iff hmask hvpn, and_assoc]

/-- R66 for one bit of two VPNs, `p` and `q` the bits of their masks. -/
theorem or_masked_bit : ∀ v1 v2 p q : Bool, ((v1 ^^ v2) && !(p || q)) = false → (v1 && p) = false →
    (v2 && q) = false → ((v1 || v2) && !p) = v1 := by decide

/-- Two masked VPNs that differ only under the masks have an address in common, their union. -/
theorem or_masked_eq_left {v1 m1 v2 m2 : Word} (h : (v1 ^^^ v2) &&& ~~~(m1 ||| m2) = 0) (h1 : v1 &&& m1 = 0)
    (h2 : v2 &&& m2 = 0) : (v1 ||| v2) &&& ~~~m1 = v1 := by
  apply BitVec.eq_of_getLsbD_eq
  intro k hk
  have hbit := congrArg (·.getLsbD k) h
  have hbit1 := congrArg (·.getLsbD k) h1
  have hbit2 := congrArg (·.getLsbD k) h2
  simp only [BitVec.getLsbD_and, BitVec.getLsbD_or, BitVec.getLsbD_xor, BitVec.getLsbD_not, hk, decide_true,
    Bool.true_and, BitVec.ofNat_eq_ofNat, BitVec.getLsbD_zero] at hbit hbit1 hbit2 ⊢
  exact or_masked_bit _ _ _ _ hbit hbit1 hbit2

/-- One address masked by each mask differs only under the masks. -/
theorem masked_xor_masked (x m1 m2 : Word) : ((x &&& ~~~m1) ^^^ (x &&& ~~~m2)) &&& ~~~(m1 ||| m2) = 0 := by
  have hbit : ∀ x p q : Bool, (((x && !p) ^^ (x && !q)) && !(p || q)) = false := by decide
  apply BitVec.eq_of_getLsbD_eq
  intro k hk
  simp only [BitVec.getLsbD_and, BitVec.getLsbD_or, BitVec.getLsbD_xor, BitVec.getLsbD_not, hk, decide_true,
    Bool.true_and, BitVec.ofNat_eq_ofNat, BitVec.getLsbD_zero]
  exact hbit _ _ _

/-- R66: the overlap test is the existence of an address that both masked comparisons accept. -/
theorem rangeOverlap_iff_common {v1 m1 v2 m2 : Word} (h1 : v1 &&& m1 = 0) (h2 : v2 &&& m2 = 0) :
    rangeOverlap v1 m1 v2 m2 = true ↔ ∃ x : Word, x &&& ~~~m1 = v1 ∧ x &&& ~~~m2 = v2 := by
  constructor
  · intro h
    have h' := h
    rw [rangeOverlap_comm] at h'
    rw [rangeOverlap, beq_iff_eq] at h h'
    refine ⟨v1 ||| v2, or_masked_eq_left h h1 h2, ?_⟩
    rw [BitVec.or_comm]
    exact or_masked_eq_left h' h2 h1
  · rintro ⟨x, rfl, rfl⟩
    rw [rangeOverlap, beq_iff_eq]
    exact masked_xor_masked x m1 m2

/-- Settles O18: each masked comparison is its span. -/
theorem rangeOverlapMeansACommonAddress : Obligations.RangeOverlapMeansACommonAddress := by
  intro c v1 m1 v2 m2 s1 s2 hm1 hm2 h1 h2
  rw [rangeOverlap_iff_common h1 h2]
  simp only [span_iff hm1 h1, span_iff hm2 h2, and_assoc]

/-- Settles O19: a global entry matches the other's ASID, and two of one ASID match it. -/
theorem scopeOverlapMeansACommonAsid : Obligations.ScopeOverlapMeansACommonAsid := by
  intro g1 a1 g2 a2
  simp only [scopeOverlap, Bool.or_eq_true, beq_iff_eq, or_assoc]
  constructor
  · rintro (hg1 | hg2 | rfl)
    · exact ⟨a2, .inl hg1, .inr rfl⟩
    · exact ⟨a1, .inr rfl, .inl hg2⟩
    · exact ⟨a1, .inr rfl, .inr rfl⟩
  · rintro ⟨a, hg1 | rfl, hg2 | rfl⟩
    · exact .inl hg1
    · exact .inl hg1
    · exact .inr (.inl hg2)
    · exact .inr (.inr rfl)

end Sys2Proof.Machine

/-! ### XLATE through the one matching entry (20_memory.md R57, R61 to R65, 40_translate.md R103) -/

namespace Sys2Proof.Machine

open Sys2Proof

/-- XLATE with one match, when the checks on the selected record fail (R64). -/
theorem exec_xlate_of_fails {s : State} {va : Word} {kind : AccessKind} {asid i : Nat} {m : MissReason}
    (hs : s.store.strategy = .softwareRefill) (hk : kind ≠ .reserved) (hu : s.UniqueHit va asid i)
    (hm : checkSubpage s.cfg ((s.store.entry i).subpage va) kind = some m) :
    exec (.xlate va kind asid) s = .next { s with rsp := some (Response.bare (.miss m)) } := by
  rw [exec_xlate_refill hs hk, xlateRefill_of_unique hu, xlateEntry, hm]
  exact congrArg _ (respond_of_not_fatal (by simp))

/-- XLATE with one match, when the checks let the access through (R64, R65). -/
theorem exec_xlate_of_passes {s : State} {va : Word} {kind : AccessKind} {asid i : Nat}
    (hs : s.store.strategy = .softwareRefill) (hk : kind ≠ .reserved) (hu : s.UniqueHit va asid i)
    (hp : checkSubpage s.cfg ((s.store.entry i).subpage va) kind = none) :
    exec (.xlate va kind asid) s = .next { s with
      rsp := some (Response.translated
        (physAddr s.cfg ((s.store.entry i).subpage va).pfn (s.store.entry i).pageMask va)
        (subpagePerms s.cfg ((s.store.entry i).subpage va))) } := by
  rw [exec_xlate_refill hs hk, xlateRefill_of_unique hu, xlateEntry, hp]
  exact congrArg _ (respond_of_not_fatal (by simp))

/-! The checks of R64, one failing check at a time. -/

theorem checkSubpage_invalid (c : Config) {r : Subpage} (kind : AccessKind) (hv : r.v = false) :
    checkSubpage c r kind = some .invalid := by
  simp [checkSubpage, hv]

theorem checkSubpage_modified (c : Config) {r : Subpage} (hv : r.v = true) (hd : r.d = false) :
    checkSubpage c r .write = some .modified := by
  simp [checkSubpage, hv, hd]

theorem checkSubpage_xi (c : Config) {r : Subpage} (hv : r.v = true) (hxi : r.xi = true) :
    checkSubpage c r .execute = some .accessDenied := by
  simp [checkSubpage, hv, hxi]

theorem checkSubpage_ri (c : Config) {r : Subpage} (hv : r.v = true) (hri : r.ri = true) :
    checkSubpage c r .read = some .accessDenied := by
  simp [checkSubpage, hv, hri]

theorem checkSubpage_ri_execute {c : Config} {r : Subpage} (hv : r.v = true) (hri : r.ri = true)
    (hblocks : c.riBlocksExecute = true) : checkSubpage c r .execute = some .accessDenied := by
  simp [checkSubpage, hv, hri, hblocks]

/-- Settles O25: the mask formula selects by bit `k`, and the first failing check is the answer. -/
theorem checksDecideInOrder : Obligations.ChecksDecideInOrder := by
  intro s va asid i k r hs hu hmask hr
  rw [← subpage_eq hmask] at hr
  subst hr
  exact ⟨fun kind hk hv => exec_xlate_of_fails hs hk hu (checkSubpage_invalid _ _ hv),
    fun hv hd => exec_xlate_of_fails hs nofun hu (checkSubpage_modified _ hv hd),
    fun hv hxi => exec_xlate_of_fails hs nofun hu (checkSubpage_xi _ hv hxi),
    fun hv hri => exec_xlate_of_fails hs nofun hu (checkSubpage_ri _ hv hri),
    fun hv hri hblocks => exec_xlate_of_fails hs nofun hu (checkSubpage_ri_execute hv hri hblocks)⟩

/-- No record lets an access of the reserved kind through (R88). -/
theorem kind_ne_reserved_of_allows {c : Config} {r : Subpage} {kind : AccessKind} (h : Allows c r kind) :
    kind ≠ .reserved := by
  rintro rfl
  exact h.2

/-- Settles O26, by the arithmetic of the physical address and the three permission bits. -/
theorem translationConcatenatesFrameAndOffset : Obligations.TranslationConcatenatesFrameAndOffset := by
  intro s va kind asid i k r hShape hs hu hmask hr hallows
  rw [← subpage_eq hmask] at hr
  subst hr
  have hk := kind_ne_reserved_of_allows hallows
  exact ⟨_, _, exec_xlate_of_passes hs hk hu ((checkSubpage_none_iff _ _ _ hk).2 hallows),
    physAddr_toNat hmask va (sub_fits hShape hu.1 va) hShape.cfgWf, perms_bits ..⟩

/-- R57: the physical address has the low PG bits of the address, which no page size reaches. -/
theorem physAddr_mod_pg {c : Config} {m : Word} {k : Nat} (hm : MaskOfShift c m k) {pfn : Word} (va : Word)
    (hp : pfn.toNat < 2 ^ c.pfnw) (hc : c.wf = true) :
    (physAddr c pfn m va).toNat % 2 ^ c.pg = va.toNat % 2 ^ c.pg := by
  have hpg : c.pg ≤ k := hm.1
  have hpaw : c.pg ≤ c.paw := by
    obtain ⟨hbase, -, hpgBase, -⟩ := cfg_wf_bits hc
    exact (hpgBase.trans_le hbase).le
  have hpage : 2 ^ c.pg ∣ pfn.toNat * 2 ^ c.pg / 2 ^ k * 2 ^ k := (Nat.pow_dvd_pow 2 hpg).mul_left _
  rw [physAddr_toNat hm va hp hc, Nat.mod_mod_of_dvd _ (Nat.pow_dvd_pow 2 hpaw), Nat.add_mod,
    Nat.mod_eq_zero_of_dvd hpage, Nat.zero_add, Nat.mod_mod, Nat.mod_mod_of_dvd _ (Nat.pow_dvd_pow 2 hpg)]

/-- R103: the one matching entry gives an address only by forming it from the selected record. -/
theorem xlateEntry_pa {c : Config} {e : Entry} {va pa : Word} {kind : AccessKind}
    (h : (xlateEntry c e va kind).pa = some pa) : pa = physAddr c (e.subpage va).pfn e.pageMask va := by
  unfold xlateEntry at h
  split at h
  · cases h
  · exact (Option.some.inj h).symm

/-- R103: only the one matching entry gives an address. -/
theorem uniqueHit_of_xlateRefill_pa {s : State} {va pa : Word} {kind : AccessKind} {asid : Nat}
    (h : (xlateRefill s va kind asid).pa = some pa) :
    ∃ i, s.UniqueHit va asid i ∧ (xlateEntry s.cfg (s.store.entry i) va kind).pa = some pa := by
  unfold xlateRefill at h
  split at h
  · cases h
  · next i hhits => exact ⟨i, (hits_eq_singleton_iff ..).1 hhits, h⟩
  · cases h

/-- XLATE's answer is the response port of the state it leaves (R100). -/
theorem rsp_of_exec_xlate {s t : State} {va : Word} {kind : AccessKind} {asid : Nat}
    (h : exec (.xlate va kind asid) s = .next t) : t.rsp = some (xlateResponse s va kind asid) := by
  cases h
  rfl

/-- Settles O28: the address comes from the one match, whose mask INV-VPN makes a page size of at least PG bits. -/
theorem translationKeepsThePageOffset : Obligations.TranslationKeepsThePageOffset := by
  intro s t va kind asid r pa hInv hs h hrsp hpa
  rw [rsp_of_exec_xlate h] at hrsp
  obtain rfl := Option.some.inj hrsp
  by_cases hk : kind = .reserved
  · rw [hk, xlateResponse_reserved] at hpa
    cases hpa
  · rw [xlateResponse_refill hs hk] at hpa
    obtain ⟨i, ⟨hi, hhit, -⟩, hentry⟩ := uniqueHit_of_xlateRefill_pa hpa
    obtain ⟨-, hei⟩ := (live_iff ..).1 (live_of_hit hhit)
    obtain ⟨⟨k, hmask⟩, -⟩ := vpnOk_of_valid (hInv.vpn i hi) hei
    rw [xlateEntry_pa hentry]
    exact physAddr_mod_pg hmask va (sub_fits hInv.shape hi va) hInv.shape.cfgWf

end Sys2Proof.Machine

/-! ### What the permissions of a success say (20_memory.md R65) -/

namespace Sys2Proof.Machine

open Sys2Proof

/-- The three permission bits say which kinds of access these answers let succeed. -/
def PermsTell (p : BitVec 3) (answer : AccessKind → Response) : Prop :=
  (p.getLsbD 0 = true ↔ (answer .read).status = .ok) ∧ (p.getLsbD 1 = true ↔ (answer .write).status = .ok)
    ∧ (p.getLsbD 2 = true ↔ (answer .execute).status = .ok)

/-- All permissions, when every kind succeeds. -/
theorem permsTell_all {answer : AccessKind → Response} (h : ∀ kind, kind ≠ .reserved → (answer kind).status = .ok) :
    PermsTell 0b111 answer := by
  simp [PermsTell, h]

/-- R103: an entry gives permissions when its selected record let the access through. -/
theorem xlateEntry_perms {c : Config} {e : Entry} {va : Word} {kind : AccessKind} {p : BitVec 3}
    (h : (xlateEntry c e va kind).perms = some p) :
    checkSubpage c (e.subpage va) kind = none ∧ p = subpagePerms c (e.subpage va) := by
  unfold xlateEntry at h
  split at h
  · cases h
  · next hp => exact ⟨hp, (Option.some.inj h).symm⟩

/-- The permissions of a valid record are the kinds it allows. -/
theorem permsTell_entry {c : Config} {e : Entry} {va : Word} (hv : (e.subpage va).v = true) :
    PermsTell (subpagePerms c (e.subpage va)) (xlateEntry c e va) := by
  obtain ⟨h0, h1, h2⟩ := perms_bits c (e.subpage va)
  have hok (kind : AccessKind) (hk : kind ≠ .reserved) := xlateEntry_ok_iff c e va hk
  rw [PermsTell, h0, h1, h2, hok .read nofun, hok .write nofun, hok .execute nofun]
  cases hri : (e.subpage va).ri <;> simp [Allows, hv, hri]

theorem permsTell_refill {s : State} {va : Word} {kind : AccessKind} {asid : Nat} {p : BitVec 3}
    (hk : kind ≠ .reserved) (h : (xlateRefill s va kind asid).perms = some p) :
    PermsTell p (xlateRefill s va · asid) := by
  unfold xlateRefill at h ⊢
  split at h
  · cases h
  · obtain ⟨hp, rfl⟩ := xlateEntry_perms h
    obtain ⟨hv, -⟩ := (checkSubpage_none_iff _ _ _ hk).1 hp
    exact permsTell_entry hv
  · cases h

theorem permsTell_fixed {c : Config} {va : Word} {p : BitVec 3} (h : (xlateFixed c va).perms = some p) :
    PermsTell p fun _ => xlateFixed c va := by
  unfold xlateFixed at h ⊢
  split at h
  · obtain rfl := Option.some.inj h
    exact permsTell_all fun _ _ => rfl
  · cases h

/-- R65 under the three strategies. -/
theorem permsTell_xlateResponse {s : State} {va : Word} {kind : AccessKind} {asid : Nat} {p : BitVec 3}
    (h : (xlateResponse s va kind asid).perms = some p) : PermsTell p (xlateResponse s va · asid) := by
  by_cases hk : kind = .reserved
  · rw [hk, xlateResponse_reserved] at h
    cases h
  · unfold xlateResponse at h ⊢
    rw [if_neg hk] at h
    cases hs : s.store.strategy with
    | none =>
      rw [hs] at h
      obtain rfl := Option.some.inj h
      exact permsTell_all fun kind hk => by simp [hk, xlateNone]
    | fixed =>
      rw [hs] at h
      simpa [PermsTell] using permsTell_fixed h
    | softwareRefill =>
      rw [hs] at h
      simpa [PermsTell] using permsTell_refill hk h

/-- XLATE gives an answer of this status exactly when its response has it. -/
theorem exec_xlate_answers_iff (s : State) (va : Word) (kind : AccessKind) (asid : Nat) (st : Status) :
    (∃ u, exec (.xlate va kind asid) s = .next u ∧ u.answered st) ↔ (xlateResponse s va kind asid).status = st := by
  simp [exec, execXlate, State.answered]

/-- Settles O27, by the strategies. -/
theorem permissionsSayWhichAccessesSucceed : Obligations.PermissionsSayWhichAccessesSucceed := by
  intro s t va kind asid r p h hrsp hperms
  rw [rsp_of_exec_xlate h] at hrsp
  obtain rfl := Option.some.inj hrsp
  simp only [exec_xlate_answers_iff]
  exact permsTell_xlateResponse hperms

end Sys2Proof.Machine

/-! ### Failing and repeating (20_memory.md R54, R55, 40_translate.md R104, 60_exceptions.md R189) -/

namespace Sys2Proof.Machine

open Sys2Proof

/-- Settles O44: of the five ways a command goes, the four that write answer OK. -/
theorem failedCommandsChangeNothing : Obligations.FailedCommandsChangeNothing := by
  intro i s t r h hrsp hr
  obtain ⟨r', rfl, -⟩ | ⟨n, f, -, -, -, rfl⟩ | ⟨index, ext, -, -, rfl⟩ | ⟨-, rfl⟩ | ⟨-, rfl⟩ := exec_cases h
  · rfl
  all_goals cases hrsp; exact absurd rfl hr

/-! The store's writes, done twice: the first leaves nothing for the second to change. -/

/-- A write that gives every entry back as it is leaves the store as it is. -/
theorem update_eq_self {st : Store} {f : Nat → Entry → Entry}
    (h : ∀ j < st.entries.length, f j (st.entry j) = st.entry j) : st.update f = st := by
  have hentries : st.entries.mapIdx f = st.entries := by
    refine List.ext_getElem (by simp) fun j _ hj => ?_
    rw [List.getElem_mapIdx, ← entry_eq_getElem hj, h j hj]
  rw [Store.update, hentries]

/-- Invalidating an invalid entry changes nothing. -/
theorem invalidate_of_ei {e : Entry} (h : e.ei = true) : e.invalidate = e := by
  rw [Entry.invalidate, ← h]

/-- An invalid entry is in no overlap set (R59). -/
theorem inOverlapSet_of_ei {st : Store} {j : Nat} (h : (st.entry j).ei = true) (n : Nat) (e : Entry) :
    st.inOverlapSet n e j = false := by
  simp [Store.inOverlapSet, Store.live, h]

/-- Whether entry `j` is in an overlap set depends on that entry and the live count alone. -/
theorem inOverlapSet_congr {st st' : Store} {j : Nat} (hcount : st'.liveCount = st.liveCount)
    (hentry : st'.entry j = st.entry j) (n : Nat) (e : Entry) : st'.inOverlapSet n e j = st.inOverlapSet n e j := by
  simp only [Store.inOverlapSet, Store.live, hcount, hentry]

/-- R120: after an install no other live entry overlaps the installed one. -/
theorem install_inOverlapSet {st : Store} {n j : Nat} (f : EntryFields) (hj : j < st.entries.length) (hne : j ≠ n) :
    (st.install n f).inOverlapSet n (Entry.ofFields f) j = false := by
  obtain ⟨-, hcount, -⟩ := install_sameFrame st n f
  have hentry := install_entry_other f hj hne
  cases hset : st.inOverlapSet n (Entry.ofFields f) j with
  | true =>
    rw [hset, if_pos rfl] at hentry
    exact inOverlapSet_of_ei (by rw [hentry]; rfl) ..
  | false =>
    rw [hset, if_neg Bool.false_ne_true] at hentry
    rw [inOverlapSet_congr hcount hentry, hset]

theorem install_install (st : Store) (n : Nat) (f : EntryFields) :
    (st.install n f).install n f = st.install n f := by
  refine update_eq_self fun j hj => ?_
  rw [Store.install, update_length] at hj
  by_cases hjn : j = n
  · subst hjn
    rw [if_pos rfl, install_entry_target f hj]
  · rw [if_neg hjn, install_inOverlapSet f hj hjn]
    rfl

/-- R125: whether entry `j` is a sibling depends on that entry, the live count and the target's fields but
EntryInvalid. -/
theorem isSibling_congr {c : Config} {st st' : Store} {n j : Nat} {ext : Bool} (hcount : st'.liveCount = st.liveCount)
    (htarget : st'.entry n = st.entry n ∨ st'.entry n = (st.entry n).invalidate) (hentry : st'.entry j = st.entry j) :
    st'.isSibling c n ext j = st.isSibling c n ext j := by
  simp only [Store.isSibling, inOverlapSet_congr hcount hentry]
  obtain htarget | htarget := htarget
  · rw [htarget]
  · rw [htarget]
    rfl

/-- No invalid entry is a sibling (R59, R125). -/
theorem isSibling_of_ei {c : Config} {st : Store} {j : Nat} (h : (st.entry j).ei = true) (n : Nat) (ext : Bool) :
    st.isSibling c n ext j = false := by
  simp [Store.isSibling, inOverlapSet_of_ei h]

/-- R125: after TLBINV the target has no sibling. -/
theorem invalidate_isSibling {c : Config} {st : Store} {n j : Nat} (ext : Bool) (hj : j < st.entries.length)
    (hne : j ≠ n) : (st.invalidate c n ext).isSibling c n ext j = false := by
  obtain ⟨-, hcount, -⟩ := invalidate_sameFrame c st n ext
  have hentry := invalidate_entry (c := c) (t := n) ext hj
  cases hsib : st.isSibling c n ext j with
  | true =>
    rw [hsib, if_pos (.inr rfl)] at hentry
    exact isSibling_of_ei (by rw [hentry]; rfl) ..
  | false =>
    rw [hsib, if_neg (by simp [hne])] at hentry
    rw [isSibling_congr hcount (invalidate_entry_cases ..) hentry, hsib]

theorem invalidate_invalidate (c : Config) (st : Store) (n : Nat) (ext : Bool) :
    (st.invalidate c n ext).invalidate c n ext = st.invalidate c n ext := by
  refine update_eq_self fun j hj => ?_
  rw [Store.invalidate, update_length] at hj
  by_cases hjn : j = n
  · subst hjn
    rw [if_pos (.inl rfl)]
    apply invalidate_of_ei
    rw [invalidate_entry ext hj, if_pos (.inl rfl)]
    rfl
  · rw [if_neg (by simp [hjn, invalidate_isSibling ext hj hjn])]

theorem flush_flush (st : Store) : st.flush.flush = st.flush :=
  update_eq_self fun j _ => invalidate_of_ei (flush_entry_ei st j)

/-! The commands, done twice. -/

/-- Giving a response twice is giving it once. -/
theorem respond_respond (s : State) (r : Response) : (s.respond r).respond r = s.respond r := by
  simp [State.respond]

/-- A lookup does not read the response port or the record of a Fatal answer (R104). -/
theorem xlateResponse_respond (s : State) (r : Response) (va : Word) (kind : AccessKind) (asid : Nat) :
    xlateResponse (s.respond r) va kind asid = xlateResponse s va kind asid := xlate_congr rfl rfl ..

theorem probeResponse_respond (s : State) (r : Response) (va : Word) (asid : Nat) :
    probeResponse (s.respond r) va asid = probeResponse s va asid := probe_congr rfl rfl ..

/-- Writing a store and answering, twice, is doing it once. -/
theorem withStore_respond_twice (s : State) (st : Store) (r : Response) :
    (((s.withStore st).respond r).withStore st).respond r = (s.withStore st).respond r :=
  respond_respond (s.withStore st) r

theorem withFlags_respond_twice (s : State) (h : BitVec 16) (p : Word) (r : Response) :
    (((s.withFlags h p).respond r).withFlags h p).respond r = (s.withFlags h p).respond r :=
  respond_respond (s.withFlags h p) r

theorem installAt_cfg (s : State) (n : Nat) (f : EntryFields) : (s.installAt n f).cfg = s.cfg := by
  unfold State.installAt
  split <;> rfl

theorem installAt_installAt (s : State) (n : Nat) (f : EntryFields) :
    (s.installAt n f).installAt n f = s.installAt n f := by
  cases hw : wfMask s.cfg f.mask with
  | false => simp [State.installAt, hw, respond_respond]
  | true => simp [State.installAt, hw, install_install, withStore_respond_twice]

/-- Run again in the state it left, the operation leaves that state. -/
def Repeatable (op : State → Host.Outcome State Fault Refusal) : Prop := ∀ s t, op s = .next t → op t = .next t

theorem repeatable_next {a : State → State} (ha : ∀ s, a (a s) = a s) : Repeatable fun s => .next (a s) := by
  rintro s _ ⟨⟩
  exact congrArg _ (ha s)

/-- A guard on the straps, which answers `r` when it fails. -/
theorem repeatable_guard (p : Config → Prop) [DecidablePred p] {a : State → State} (r : Response)
    (hcfg : ∀ s, (a s).cfg = s.cfg) (ha : ∀ s, a (a s) = a s) :
    Repeatable fun s => if p s.cfg then .next (a s) else .next (s.respond r) := by
  intro s t h
  by_cases hp : p s.cfg
  · simp only [if_pos hp, Host.Outcome.next.injEq] at h
    subst h
    simp only [hcfg, if_pos hp, ha]
  · simp only [if_neg hp, Host.Outcome.next.injEq] at h
    subst h
    simp only [respond_cfg, if_neg hp, respond_respond]

/-- R55: every command is repeatable: a lookup writes nothing it reads, and a write leaves nothing for its
repetition to write. -/
theorem exec_repeatable (i : Instr) : Repeatable (exec i) := by
  cases i with
  | xlate va kind asid =>
    exact repeatable_next fun s => by rw [xlateResponse_respond, respond_respond]
  | tlbwi index f =>
    exact repeatable_guard (index.toNat < ·.ntlb) _ (installAt_cfg · _ f) (installAt_installAt · _ f)
  | tlbwr wired rand f =>
    exact repeatable_guard (wired.toNat < ·.ntlb) _ (fun s => installAt_cfg s _ f) fun s => by
      rw [installAt_cfg, installAt_installAt]
  | tlbp va asid =>
    exact repeatable_next fun s => by rw [probeResponse_respond, respond_respond]
  | tlbr index =>
    exact repeatable_guard (index.toNat < ·.ntlb) _ (fun _ => rfl) fun s => respond_respond s _
  | tlbinv index ext =>
    exact repeatable_guard (index.toNat < ·.ntlb) _ (fun _ => rfl) fun s => by
      simp only [respond_store, respond_cfg, withStore_store, withStore_cfg, invalidate_invalidate,
        withStore_respond_twice]
  | tlbflush =>
    exact repeatable_next fun s => by
      simp only [respond_store, withStore_store, flush_flush, withStore_respond_twice]
  | derive => exact repeatable_next fun s => withFlags_respond_twice s _ _ _

/-- Settles O46, command by command. -/
theorem repeatingACommandChangesNothing : Obligations.RepeatingACommandChangesNothing :=
  exec_repeatable

/-- R104: XLATE, TLBP and TLBR only respond. -/
theorem exec_lookup_responds {i : Instr} {s t : State}
    (hi : (∃ va kind asid, i = .xlate va kind asid) ∨ (∃ va asid, i = .tlbp va asid) ∨ ∃ index, i = .tlbr index)
    (h : exec i s = .next t) : ∃ r, t = s.respond r := by
  obtain ⟨va, kind, asid, rfl⟩ | ⟨va, asid, rfl⟩ | ⟨index, rfl⟩ := hi
  · cases h
    exact ⟨_, rfl⟩
  · cases h
    exact ⟨_, rfl⟩
  · simp only [exec, execTlbr] at h
    split at h <;> cases h <;> exact ⟨_, rfl⟩

/-- Settles O29: a lookup only responds, and is repeatable like every command. -/
theorem lookupsArePure : Obligations.LookupsArePure := by
  intro i s t hi h
  obtain ⟨r, rfl⟩ := exec_lookup_responds hi h
  exact ⟨rfl, _, exec_repeatable i _ _ h, rfl⟩

end Sys2Proof.Machine

/-! ### The encoder and the decoder (30_encoding.md R80 to R92) -/

namespace Sys2Proof.Machine

open Sys2Proof

/-- R92: a packed record has a value for every field. -/
theorem map_fst_zip_values (c : Config) (r : CmdRecord) :
    ((recordWidths c).zip r.values).map Prod.fst = recordWidths c :=
  List.map_fst_zip (by
    simp [recordWidths, operandWidths, subpageWidths, CmdRecord.values, Subpage.values])

/-- R92: the packed record has the record's width. -/
theorem pack_lt (c : Config) (r : CmdRecord) : r.pack c < 2 ^ recordBits c := by
  have hlt := joinFields_lt ((recordWidths c).zip r.values)
  rwa [map_fst_zip_values] at hlt

/-- R92: packing loses nothing the decoder looks at. -/
theorem decodeWord_pack (c : Config) (r : CmdRecord) : decodeWord c (r.pack c) = decode c r := by
  rw [decodeWord, unpack_pack, decode_clip]

/-- R80 to R83: the record that presents a well-formed command decodes to it. -/
theorem decode_encode {c : Config} {i : Instr} (h : i.wellFormed c = true) : decode c (encode i) = .ok i := by
  cases i with
  | xlate va kind asid => exact Laws.RoundTrip.xlate va kind asid c h
  | tlbwi index f => exact Laws.RoundTrip.tlbwi index f c h
  | tlbwr wired rand f => exact Laws.RoundTrip.tlbwr wired rand f c h
  | tlbp va asid => exact Laws.RoundTrip.tlbp va asid c h
  | tlbr index => exact Laws.RoundTrip.tlbr index c h
  | tlbinv index ext => exact Laws.RoundTrip.tlbinv index ext c h
  | tlbflush => exact Laws.RoundTrip.tlbflush c h
  | derive => exact Laws.RoundTrip.derive c h

/-- Settles O5: packing keeps the record on its wires, and a command that fits them comes back. No constraint of a
legal configuration is needed. -/
theorem decodeOfEncodeIsTheCommand : Obligations.DecodeOfEncodeIsTheCommand :=
  fun c i _ hi => ⟨pack_lt c (encode i), (decodeWord_pack c (encode i)).trans (decode_encode hi)⟩

/-- Settles O2, one equation of the decoder per opcode. -/
theorem opcodeSelectsTheCommand : Obligations.OpcodeSelectsTheCommand := fun _ _ =>
  ⟨fun h => ⟨_, _, _, decode_op1 h⟩, fun h => ⟨_, _, decode_op2 h⟩, fun h => ⟨_, _, _, decode_op3 h⟩,
    fun h => ⟨_, _, decode_op4 h⟩, fun h => ⟨_, decode_op5 h⟩, fun h => ⟨_, _, decode_op6 h⟩, decode_op7, decode_op8,
    decode_reserved⟩

/-- Settles O3: for each opcode the decoder's equation names only the operands the two records agree on. -/
theorem ignoredSignalsDoNotMatter : Obligations.IgnoredSignalsDoNotMatter := by
  intro c r q hop h1 h2 h3 h4 h5 h6
  obtain hr | hr | hr | hr | hr | hr | hr | hr | hr := op_cases r.op
  · obtain ⟨hva, hkind, hasid⟩ := h1 hr
    rw [decode_op1 hr, decode_op1 (hop ▸ hr), hva, hkind, hasid]
  · obtain ⟨hindex, hf⟩ := h2 hr
    rw [decode_op2 hr, decode_op2 (hop ▸ hr), hindex, hf]
  · obtain ⟨hwired, hrand, hf⟩ := h3 hr
    rw [decode_op3 hr, decode_op3 (hop ▸ hr), hwired, hrand, hf]
  · obtain ⟨hva, hasid⟩ := h4 hr
    rw [decode_op4 hr, decode_op4 (hop ▸ hr), hva, hasid]
  · rw [decode_op5 hr, decode_op5 (hop ▸ hr), h5 hr]
  · obtain ⟨hindex, hext⟩ := h6 hr
    rw [decode_op6 hr, decode_op6 (hop ▸ hr), hindex, hext]
  · rw [decode_op7 hr, decode_op7 (hop ▸ hr)]
  · rw [decode_op8 hr, decode_op8 (hop ▸ hr)]
  · rw [decode_reserved hr, decode_reserved (hop ▸ hr), hop]

/-- R80: the operands of a decoded command were cut to their signals. -/
theorem decode_wellFormed {c : Config} {r : CmdRecord} {i : Instr} (h : decode c r = .ok i) :
    i.wellFormed c = true := by
  have hclip : (lowBits c.vabits r.va).toNat < 2 ^ c.vabits ∧ lowNat c.asidw r.asid < 2 ^ c.asidw :=
    ⟨lowBits_lt .., lowNat_lt ..⟩
  obtain hr | hr | hr | hr | hr | hr | hr | hr | hr := op_cases r.op
  · cases (decode_op1 hr).symm.trans h
    simpa [Instr.wellFormed] using hclip
  · cases (decode_op2 hr).symm.trans h
    exact fields_clip_wellFormed ..
  · cases (decode_op3 hr).symm.trans h
    exact fields_clip_wellFormed ..
  · cases (decode_op4 hr).symm.trans h
    simpa [Instr.wellFormed] using hclip
  · cases (decode_op5 hr).symm.trans h
    rfl
  · cases (decode_op6 hr).symm.trans h
    rfl
  · cases (decode_op7 hr).symm.trans h
    rfl
  · cases (decode_op8 hr).symm.trans h
    rfl
  · cases (decode_reserved hr).symm.trans h

/-- Settles O4, for the record the number unpacks to. -/
theorem decodedCommandsAreWellFormed : Obligations.DecodedCommandsAreWellFormed :=
  fun _ _ _ => decode_wellFormed

/-- Settles O1, by running the decoder on the four numbers. -/
theorem writtenOutRecordsDecode : Obligations.WrittenOutRecordsDecode :=
  ⟨by decide, by decide, by decide, by decide⟩

/-- Settles O8: a reserved opcode decodes to no command, and the answer is not Fatal. -/
theorem reservedOpcodeIsAnswered : Obligations.ReservedOpcodeIsAnswered := by
  intro s m rest r henv hrst hcmd hop
  rw [step_of_decode_error henv hrst hcmd (decode_reserved hop)]
  exact congrArg _ (respond_of_not_fatal (by simp))

/-- Settles O20: the kind is tested before the strategy, and the answer is not Fatal. -/
theorem reservedKindIsRefused : Obligations.ReservedKindIsRefused := by
  intro s va asid
  rw [exec, execXlate, xlateResponse_reserved]
  exact congrArg _ (respond_of_not_fatal (by simp))

end Sys2Proof.Machine

/-! ### The response port (30_encoding.md R83, R84) -/

namespace Sys2Proof.Machine

open Sys2Proof

/-- R83, R84: the response has exactly the results listed for the command, and only with OK. -/
def CarriesResultsOf (i : Instr) (r : Response) : Prop :=
  (r.pa.isSome = true ↔ r.status = .ok ∧ ∃ va kind asid, i = .xlate va kind asid)
    ∧ (r.perms.isSome = true ↔ r.status = .ok ∧ ∃ va kind asid, i = .xlate va kind asid)
    ∧ (r.rIndex.isSome = true ↔ r.status = .ok
        ∧ (isWrite i = true ∨ (∃ va asid, i = .tlbp va asid) ∨ (∃ index, i = .tlbr index)
          ∨ ∃ index ext, i = .tlbinv index ext))
    ∧ (r.rEntry.isSome = true ↔ r.status = .ok ∧ ∃ index, i = .tlbr index)

/-- A status other than OK comes without results, whatever the command. -/
theorem carriesResultsOf_bare {st : Status} (h : st ≠ .ok) (i : Instr) : CarriesResultsOf i (Response.bare st) := by
  simp [CarriesResultsOf, Response.bare, h]

/-- An index alone is the result of the writes, of TLBP and of TLBINV. -/
theorem carriesResultsOf_index {i : Instr}
    (h : (∃ index f, i = .tlbwi index f) ∨ (∃ wired rand f, i = .tlbwr wired rand f) ∨ (∃ va asid, i = .tlbp va asid)
      ∨ ∃ index ext, i = .tlbinv index ext) (n : IndexWord) : CarriesResultsOf i (Response.index n) := by
  obtain ⟨index, f, rfl⟩ | ⟨wired, rand, f, rfl⟩ | ⟨va, asid, rfl⟩ | ⟨index, ext, rfl⟩ := h
  all_goals simp [CarriesResultsOf, Response.index, Response.bare, isWrite]

/-- An address and permissions are the results of XLATE. -/
theorem carriesResultsOf_translated (va : Word) (kind : AccessKind) (asid : Nat) (pa : Word) (p : BitVec 3) :
    CarriesResultsOf (.xlate va kind asid) (Response.translated pa p) := by
  simp [CarriesResultsOf, Response.translated, Response.bare, isWrite]

/-- An index and an entry are the results of TLBR. -/
theorem carriesResultsOf_entry (index n : IndexWord) (e : Entry) :
    CarriesResultsOf (.tlbr index) (Response.entry n e) := by
  simp [CarriesResultsOf, Response.entry, Response.index, Response.bare]

/-- The two commands without a result answer OK bare. -/
theorem carriesResultsOf_bare_ok {i : Instr} (h : i = .tlbflush ∨ i = .derive) :
    CarriesResultsOf i (Response.bare .ok) := by
  obtain rfl | rfl := h <;> simp [CarriesResultsOf, Response.bare, isWrite]

theorem xlateFixed_carriesResults (c : Config) (va : Word) (kind : AccessKind) (asid : Nat) :
    CarriesResultsOf (.xlate va kind asid) (xlateFixed c va) := by
  unfold xlateFixed
  split
  · exact carriesResultsOf_translated ..
  · exact carriesResultsOf_bare (by simp) _

theorem xlateEntry_carriesResults (c : Config) (e : Entry) (va : Word) (kind : AccessKind) (asid : Nat) :
    CarriesResultsOf (.xlate va kind asid) (xlateEntry c e va kind) := by
  unfold xlateEntry
  split
  · exact carriesResultsOf_bare (by simp) _
  · exact carriesResultsOf_translated ..

theorem xlateRefill_carriesResults (s : State) (va : Word) (kind : AccessKind) (asid : Nat) :
    CarriesResultsOf (.xlate va kind asid) (xlateRefill s va kind asid) := by
  unfold xlateRefill
  split
  · exact carriesResultsOf_bare (by simp) _
  · exact xlateEntry_carriesResults ..
  · exact carriesResultsOf_bare (by simp) _

/-- R88, R101 to R103: the reserved kind is refused, and every strategy translates or answers a miss. -/
theorem xlateResponse_carriesResults (s : State) (va : Word) (kind : AccessKind) (asid : Nat) :
    CarriesResultsOf (.xlate va kind asid) (xlateResponse s va kind asid) := by
  unfold xlateResponse
  split
  · exact carriesResultsOf_bare (by simp) _
  · split
    · exact carriesResultsOf_translated ..
    · exact xlateFixed_carriesResults ..
    · exact xlateRefill_carriesResults ..

theorem probeResponse_carriesResults (s : State) (va : Word) (asid : Nat) :
    CarriesResultsOf (.tlbp va asid) (probeResponse s va asid) := by
  unfold probeResponse
  split
  · exact carriesResultsOf_bare (by simp) _
  · exact carriesResultsOf_index (.inr (.inr (.inl ⟨va, asid, rfl⟩))) _
  · exact carriesResultsOf_bare (by simp) _

/-- R83: every command answers with its results. -/
theorem exec_carriesResults {i : Instr} {s t : State} (h : exec i s = .next t) :
    ∃ r, t.rsp = some r ∧ CarriesResultsOf i r := by
  obtain ⟨r, rfl, hr⟩ | ⟨n, f, -, -, hi, rfl⟩ | ⟨index, ext, rfl, -, rfl⟩ | ⟨rfl, rfl⟩ | ⟨rfl, rfl⟩ := exec_cases h
  · refine ⟨r, rfl, ?_⟩
    obtain ⟨va, kind, asid, rfl, rfl⟩ | ⟨va, asid, rfl, rfl⟩ | ⟨index, rfl, -, rfl⟩ | ⟨e, rfl⟩ := hr
    · exact xlateResponse_carriesResults ..
    · exact probeResponse_carriesResults ..
    · exact carriesResultsOf_entry ..
    · exact carriesResultsOf_bare (by simp) _
  · refine ⟨_, rfl, ?_⟩
    obtain ⟨index, rfl, -⟩ | ⟨wired, rand, rfl, -, -⟩ := hi
    · exact carriesResultsOf_index (.inl ⟨index, f, rfl⟩) _
    · exact carriesResultsOf_index (.inr (.inl ⟨wired, rand, f, rfl⟩)) _
  · exact ⟨_, rfl, carriesResultsOf_index (.inr (.inr (.inr ⟨index, ext, rfl⟩))) _⟩
  · exact ⟨_, rfl, carriesResultsOf_bare_ok (.inl rfl)⟩
  · exact ⟨_, rfl, carriesResultsOf_bare_ok (.inr rfl)⟩

/-- Settles O47, by the ways a command goes. -/
theorem resultsArePresentExactlyWhereListed : Obligations.ResultsArePresentExactlyWhereListed :=
  fun _ _ _ => exec_carriesResults

/-- The status a code of R84's table stands for; a reserved code stands for none. -/
def Status.ofCode (k : BitVec 4) : Option Status :=
  match k.toNat with
  | 0x0 => some .ok
  | 0x1 => some (.miss .refill)
  | 0x2 => some (.miss .invalid)
  | 0x3 => some (.miss .modified)
  | 0x4 => some (.miss .accessDenied)
  | 0x5 => some .notFound
  | 0x8 => some (.err .indexOutOfRange)
  | 0x9 => some (.err .malformedFields)
  | 0xA => some (.err .noVictim)
  | 0xB => some (.err .illegalCommand)
  | 0xF => some .fatal
  | _   => none

/-- R84: the status code can be read back. -/
theorem ofCode_code (st : Status) : Status.ofCode st.code = some st := by
  cases st with
  | miss r => cases r <;> rfl
  | err r => cases r <;> rfl
  | _ => rfl

/-- R84: the status code identifies the status. -/
theorem code_eq_code_iff (st st' : Status) : st.code = st'.code ↔ st = st' := by
  refine ⟨fun h => ?_, congrArg _⟩
  have hread := congrArg Status.ofCode h
  rw [ofCode_code, ofCode_code] at hread
  exact Option.some.inj hread

/-- R84: no status has a reserved code. -/
theorem code_ne_of_reserved {k : BitVec 4} (h : Status.ofCode k = none) (st : Status) : st.code ≠ k := by
  rintro rfl
  simp [ofCode_code] at h

/-- Settles O48: the outputs are read off the state, and each line of the table is the code of its status. -/
theorem statusCodesFollowTheTable : Obligations.StatusCodesFollowTheTable := by
  refine ⟨fun _ => ⟨rfl, rfl⟩, fun s hrsp => by simp [State.outputs, hrsp], fun s r hrsp => ?_⟩
  have hline := code_eq_code_iff r.status
  have hreserved {k : BitVec 4} (h : Status.ofCode k = none) := code_ne_of_reserved h r.status
  refine ⟨by simp [State.outputs, hrsp], r.status.code, by simp [State.outputs, hrsp], ?_⟩
  exact ⟨hline .ok, hline (.miss .refill), hline (.miss .invalid), hline (.miss .modified),
    hline (.miss .accessDenied), hline .notFound, hline (.err .indexOutOfRange), hline (.err .malformedFields),
    hline (.err .noVictim), hline (.err .illegalCommand), hline .fatal,
    hreserved rfl, hreserved rfl, hreserved rfl, hreserved rfl, hreserved rfl⟩

end Sys2Proof.Machine

/-! ### XLATE under each strategy (40_translate.md R101 to R103, 60_exceptions.md R180) -/

namespace Sys2Proof.Machine

open Sys2Proof

/-- R100: an answer that is not Fatal is the whole effect of XLATE. -/
theorem exec_xlate_of_response {s : State} {va : Word} {kind : AccessKind} {asid : Nat} {r : Response}
    (h : xlateResponse s va kind asid = r) (hr : r.status ≠ .fatal) :
    exec (.xlate va kind asid) s = .next { s with rsp := some r } := by
  rw [exec, execXlate, h, respond_of_not_fatal hr]

/-- XLATE under None for a kind that is not reserved (R101). -/
theorem xlateResponse_none {s : State} (hs : s.store.strategy = .none) {kind : AccessKind}
    (hk : kind ≠ .reserved) (va : Word) (asid : Nat) : xlateResponse s va kind asid = xlateNone s.cfg va := by
  simp [xlateResponse, hk, hs]

/-- XLATE under Fixed for a kind that is not reserved (R102). -/
theorem xlateResponse_fixed {s : State} (hs : s.store.strategy = .fixed) {kind : AccessKind}
    (hk : kind ≠ .reserved) (va : Word) (asid : Nat) : xlateResponse s va kind asid = xlateFixed s.cfg va := by
  simp [xlateResponse, hk, hs]

/-- R102: a covering window with none that covers before it in the list decides. -/
theorem xlateFixed_of_first {c : Config} {va : Word} {before after : List Window} {w : Window}
    (hlist : c.fixedWindows = before ++ w :: after) (hbefore : ∀ u ∈ before, ¬windowCovers va u)
    (hw : windowCovers va w) :
    xlateFixed c va = Response.translated (resizePaw c (w.pbase + (va.toNat - w.vbase))) 0b111 := by
  have hfirst : c.fixedWindows.find? (windowCovers va) = some w :=
    List.find?_eq_some_iff_append.2 ⟨hw, before, after, hlist, by simpa using hbefore⟩
  rw [xlateFixed, hfirst]

/-- R102: outside every window the answer is the configured miss. -/
theorem xlateFixed_of_outside {c : Config} {va : Word} (h : ∀ u ∈ c.fixedWindows, ¬windowCovers va u) :
    xlateFixed c va = Response.bare (.miss c.fixedMissReason) := by
  rw [xlateFixed, List.find?_eq_none.2 h]

/-- Settles O22: the search for a covering window finds the first one, or none. -/
theorem fixedWindowTranslation : Obligations.FixedWindowTranslation := by
  intro s va kind asid hs hk
  have hresponse := xlateResponse_fixed hs hk va asid
  simp only [← windowCovers_iff]
  refine ⟨fun before w after hlist hbefore hbase hsize => ?_, fun houtside => ?_⟩
  · have hw := (windowCovers_iff va w).2 ⟨hbase, hsize⟩
    exact exec_xlate_of_response (hresponse.trans (xlateFixed_of_first hlist hbefore hw)) (by simp)
  · exact exec_xlate_of_response (hresponse.trans (xlateFixed_of_outside houtside)) (by simp)

/-- Settles O23: without a hit the answer is the refill miss, before any check that reads the kind. -/
theorem noMatchIsARefillMiss : Obligations.NoMatchIsARefillMiss := by
  intro s va kind asid hs hk hno
  exact exec_xlate_of_response ((xlateResponse_refill hs hk va asid).trans (xlateRefill_of_noHit hno kind)) (by simp)

/-- Settles O21: under None the strategy alone selects the answer, and the answer is never Fatal. -/
theorem identityTranslation : Obligations.IdentityTranslation := by
  intro s va kind asid hs hk
  exact exec_xlate_of_response (xlateResponse_none hs hk va asid) (by simp)

end Sys2Proof.Machine

/-! ### Every step keeps the invariant (10_state.md R22, R34, 41_tlb_maintenance.md R127)

A command that writes the store leaves each entry as it was, invalidates it, or, at one index, installs fields. -/

namespace Sys2Proof.Machine

open Sys2Proof

/-- The invariant reads the straps, the store and PAMASK alone. -/
theorem inv_congr {s t : State} (h : s.Inv) (hcfg : t.cfg = s.cfg) (hstore : t.store = s.store)
    (hpamask : t.pamask.toNat < 2 ^ s.cfg.paw) : t.Inv := by
  obtain ⟨⟨hwf, hlength, hfits, hcount, hstrategy, -⟩, hvpn, hoverlap⟩ := h
  unfold State.InvVpn at hvpn
  unfold State.InvOverlap at hoverlap
  rw [← hcfg] at hwf hlength hfits hcount hstrategy hpamask hvpn hoverlap
  rw [← hstore] at hlength hfits hcount hstrategy hvpn hoverlap
  exact ⟨⟨hwf, hlength, hfits, hcount, hstrategy, hpamask⟩, hvpn, hoverlap⟩

/-- Giving a response keeps the invariant. -/
theorem respond_inv {s : State} (h : s.Inv) (r : Response) : (s.respond r).Inv :=
  inv_congr h rfl rfl h.shape.pamask

/-- Writing the store of a state of the invariant keeps it when the store's frame is kept, the entries fit and
satisfy INV-VPN, and INV-OVERLAP holds afterwards. -/
theorem withStore_inv {s : State} {st : Store} (h : s.Inv) (hframe : s.store.SameFrame st)
    (hentry : ∀ j < s.cfg.ntlb, (st.entry j).fits s.cfg = true ∧ (st.entry j).vpnOk s.cfg = true)
    (hoverlap : (s.withStore st).InvOverlap) : (s.withStore st).Inv := by
  obtain ⟨hlength, hcount, hstrategy⟩ := hframe
  exact
    { shape :=
        { cfgWf := h.shape.cfgWf
          length := hlength.trans h.shape.length
          fits := fun j hj => (hentry j hj).1
          liveCount := hcount.trans h.shape.liveCount
          strategy := hstrategy.trans h.shape.strategy
          pamask := h.shape.pamask }
      vpn := fun j hj => (hentry j hj).2
      overlap := hoverlap }

/-- Entry `j` of the second store is that of the first, as it was or invalidated. -/
def Store.KeptOrInvalidated (st st' : Store) (j : Nat) : Prop :=
  st'.entry j = st.entry j ∨ st'.entry j = (st.entry j).invalidate

/-- R120: an install keeps or invalidates every other entry. -/
theorem install_keptOrInvalidated (st : Store) (n : Nat) (f : EntryFields) {j : Nat} (hne : j ≠ n) :
    st.KeptOrInvalidated (st.install n f) j := by
  by_cases hj : j < st.entries.length
  · rw [Store.KeptOrInvalidated, install_entry_other f hj hne]
    exact (ite_eq_or_eq ..).symm
  · exact .inl (update_entry_of_le _ (Nat.not_lt.1 hj))

/-- An entry kept or invalidated fits its storage and satisfies INV-VPN as it did before. -/
theorem keptOrInvalidated_ok {c : Config} {st st' : Store} {j : Nat} (h : st.KeptOrInvalidated st' j)
    (hfits : (st.entry j).fits c = true) (hvpn : (st.entry j).vpnOk c = true) :
    (st'.entry j).fits c = true ∧ (st'.entry j).vpnOk c = true := by
  obtain h | h := h
  · rw [h]
    exact ⟨hfits, hvpn⟩
  · rw [h]
    exact ⟨invalidate_fits hfits, invalidate_vpnOk ..⟩

/-- An entry kept or invalidated and live afterwards was kept, and was live. -/
theorem kept_of_live {st st' : Store} {j : Nat} (hcount : st'.liveCount = st.liveCount)
    (h : st.KeptOrInvalidated st' j) (hlive : st'.live j = true) :
    st'.entry j = st.entry j ∧ st.live j = true := by
  obtain ⟨hj, hei⟩ := (live_iff ..).1 hlive
  obtain h | h := h
  · exact ⟨h, (live_iff ..).2 ⟨hcount ▸ hj, h ▸ hei⟩⟩
  · simp [h] at hei

/-- Two entries kept or invalidated, both live afterwards, do not overlap, because they did not before. -/
theorem keptOrInvalidated_overlap {s : State} (hI : s.InvOverlap) {st : Store}
    (hcount : st.liveCount = s.store.liveCount) {i j : Nat} (hi : i < s.cfg.ntlb) (hj : j < s.cfg.ntlb) (hne : i ≠ j)
    (hki : s.store.KeptOrInvalidated st i) (hkj : s.store.KeptOrInvalidated st j)
    (hlivei : st.live i = true) (hlivej : st.live j = true) : (st.entry i).overlaps (st.entry j) = false := by
  obtain ⟨hentryi, hlivei'⟩ := kept_of_live hcount hki hlivei
  obtain ⟨hentryj, hlivej'⟩ := kept_of_live hcount hkj hlivej
  rw [hentryi, hentryj]
  exact hI i hi j hj hne hlivei' hlivej'

/-- R127 for TLBINV and TLBFLUSH: keeping and invalidating entries keeps the invariant. -/
theorem withStore_inv_of_keptOrInvalidated {s : State} {st : Store} (h : s.Inv) (hframe : s.store.SameFrame st)
    (hkept : ∀ j, s.store.KeptOrInvalidated st j) : (s.withStore st).Inv := by
  refine withStore_inv h hframe (fun j hj => keptOrInvalidated_ok (hkept j) (h.shape.fits j hj) (h.vpn j hj)) ?_
  obtain ⟨-, hcount, -⟩ := hframe
  exact fun i hi j hj hne => keptOrInvalidated_overlap h.overlap hcount hi hj hne (hkept i) (hkept j)

/-- R120: no other live entry overlaps the installed one. -/
theorem install_target_overlaps {st : Store} {n j : Nat} (f : EntryFields) (hn : n < st.entries.length) (hne : j ≠ n)
    (hlive : (st.install n f).live j = true) :
    ((st.install n f).entry n).overlaps ((st.install n f).entry j) = false := by
  have hj : j < st.entries.length := by simpa [Store.install] using lt_length_of_live hlive
  have hset := install_inOverlapSet f hj hne
  rw [install_entry_target f hn]
  simpa [Store.inOverlapSet, hne, hlive] using hset

/-- R127: an install keeps INV-OVERLAP: two other entries were kept or invalidated, and the overlap set has left
none that overlaps the installed one. -/
theorem install_invOverlap {s : State} (hI : s.InvOverlap) {n : Nat} (hn : n < s.store.entries.length)
    (f : EntryFields) : (s.withStore (s.store.install n f)).InvOverlap := by
  intro i hi j hj hne hlivei hlivej
  by_cases hin : i = n
  · subst hin
    exact install_target_overlaps f hn hne.symm hlivej
  · by_cases hjn : j = n
    · subst hjn
      rw [overlaps_comm]
      exact install_target_overlaps f hn hne hlivei
    · obtain ⟨-, hcount, -⟩ := install_sameFrame s.store n f
      exact keptOrInvalidated_overlap hI hcount hi hj hne (install_keptOrInvalidated _ _ _ hin)
        (install_keptOrInvalidated _ _ _ hjn) hlivei hlivej

/-- R127 for the two writes, when the fields fit their wires. -/
theorem install_inv {s : State} (h : s.Inv) {n : Nat} {f : EntryFields} (hn : n < s.cfg.ntlb)
    (hf : f.wellFormed s.cfg = true) (hmask : wfMask s.cfg f.mask = true) :
    (s.withStore (s.store.install n f)).Inv := by
  have hn' : n < s.store.entries.length := h.shape.length.symm ▸ hn
  refine withStore_inv h (install_sameFrame ..) (fun j hj => ?_) (install_invOverlap h.overlap hn' f)
  by_cases hjn : j = n
  · rw [hjn, install_entry_target f hn']
    exact ⟨ofFields_fits hf, ofFields_vpnOk hmask⟩
  · exact keptOrInvalidated_ok (install_keptOrInvalidated _ _ _ hjn) (h.shape.fits j hj) (h.vpn j hj)

/-- R167: the derived PAMASK has PAW bits. -/
theorem derivePamask_lt {c : Config} (hc : c.wf = true) (cr : ControlRegs) :
    (derivePamask c cr).toNat < 2 ^ c.paw := by
  obtain ⟨hbase, hext, -⟩ := cfg_wf_bits hc
  have hwidth : (if deriveElpa cr then c.pabitsExt else c.pabitsBase) ≤ c.paw := by
    rw [Config.paw]
    split
    · exact le_rfl
    · exact hbase
  rw [derivePamask, ones_toNat (hwidth.trans hext)]
  exact (Nat.sub_lt (Nat.two_pow_pos _) Nat.one_pos).trans_le (Nat.pow_le_pow_right Nat.two_pos hwidth)

/-- R211 to R213: the reset input leaves a state the reset rules allow. -/
theorem applyReset_isReset {s : State} (hc : s.cfg.wf = true) : s.applyReset.IsReset where
  shape :=
    { cfgWf := hc
      length := applyReset_entries_length s
      fits := fun i hi => by
        rw [applyReset_entry s hi]
        exact freeEntry_fits ..
      liveCount := rfl
      strategy := rfl
      pamask := freeWord_lt .. }
  invalid i hi := by
    rw [applyReset_entry s hi]
    rfl

/-- R127: a command whose operands fit their signals keeps the invariant. -/
theorem exec_keeps_inv {i : Instr} {s t : State} (h : s.Inv) (hi : i.wellFormed s.cfg = true)
    (hexec : exec i s = .next t) : t.Inv := by
  obtain ⟨r, rfl, -⟩ | ⟨n, f, hmask, hn, hwrite, rfl⟩ | ⟨index, ext, -, -, rfl⟩ | ⟨-, rfl⟩ | ⟨-, rfl⟩ :=
    exec_cases hexec
  · exact respond_inv h _
  · have hf : f.wellFormed s.cfg = true := by
      obtain ⟨index, rfl, -⟩ | ⟨wired, rand, rfl, -⟩ := hwrite <;> exact hi
    exact respond_inv (install_inv h hn hf hmask) _
  · exact respond_inv (withStore_inv_of_keptOrInvalidated h (invalidate_sameFrame ..)
      (invalidate_entry_cases s.cfg s.store _ ext)) _
  · exact respond_inv (withStore_inv_of_keptOrInvalidated h (flush_sameFrame _) (flush_entry_cases _)) _
  · exact inv_congr h rfl rfl (derivePamask_lt h.shape.cfgWf s.cr)

/-- Settles O14, by the cases of a step: driving the inputs touches nothing the invariant reads, the reset input
leaves a reset state, and a decoded command's operands fit their signals. -/
theorem everyStepKeepsTheInvariant : Obligations.EveryStepKeepsTheInvariant := by
  intro s t hInv h
  obtain ⟨-, rfl⟩ | ⟨m, rest, -, hcase⟩ := step_cases h
  · exact inv_congr hInv rfl rfl hInv.shape.pamask
  · have hdrive : (s.drive m rest).Inv := inv_congr hInv rfl rfl hInv.shape.pamask
    obtain ⟨-, rfl⟩ | ⟨-, -, rfl⟩ | ⟨r, e, -, -, -, rfl⟩ | ⟨r, i, -, -, hdecode, hexec⟩ := hcase
    · exact isReset_inv (applyReset_isReset hdrive.shape.cfgWf)
    · exact inv_congr hdrive rfl rfl hdrive.shape.pamask
    · exact respond_inv hdrive _
    · exact exec_keeps_inv hdrive (decode_wellFormed hdecode) hexec

end Sys2Proof.Machine

/-! ### The guards of the maintenance commands (41_tlb_maintenance.md R120 to R126, R131, 60_exceptions.md R183) -/

namespace Sys2Proof.Machine

open Sys2Proof

/-- R121: past its guard TLBWI is the install step at the index. -/
theorem exec_tlbwi_of_lt {s : State} {index : IndexWord} (h : index.toNat < s.cfg.ntlb) (f : EntryFields) :
    exec (.tlbwi index f) s = .next (s.installAt index.toNat f) := if_pos h

/-- R122: past its guard TLBWR is the install step at the victim. -/
theorem exec_tlbwr_of_lt {s : State} {wired : IndexWord} (h : wired.toNat < s.cfg.ntlb) (rand : IndexWord)
    (f : EntryFields) : exec (.tlbwr wired rand f) s = .next (s.installAt (victim s.cfg wired rand) f) := if_pos h

theorem exec_tlbr_of_lt {s : State} {index : IndexWord} (h : index.toNat < s.cfg.ntlb) :
    exec (.tlbr index) s = .next { s with rsp := some (Response.entry index (s.store.entry index.toNat)) } :=
  (if_pos h).trans (congrArg _ (respond_of_not_fatal (by simp)))

theorem exec_tlbinv_of_lt {s : State} {index : IndexWord} (h : index.toNat < s.cfg.ntlb) (ext : Bool) :
    exec (.tlbinv index ext) s = .next { s with
      store := s.store.invalidate s.cfg index.toNat ext, rsp := some (Response.index index) } :=
  (if_pos h).trans (congrArg _ (respond_of_not_fatal (by simp)))

/-- A guard that fails leaves the command's refusal and nothing else. -/
theorem refused_of_le {s : State} {n : Nat} (h : s.cfg.ntlb ≤ n) (o : Host.Outcome State Fault Refusal)
    (e : ErrReason) :
    (if n < s.cfg.ntlb then o else .next (s.respond (Response.bare (.err e))))
      = .next { s with rsp := some (Response.bare (.err e)) } :=
  (if_neg (Nat.not_lt.2 h)).trans (congrArg _ (respond_of_not_fatal (by simp)))

/-- Settles O34: the three commands test the index, all 32 bits of it, before anything else. -/
theorem outOfRangeIndexIsSurfaced : Obligations.OutOfRangeIndexIsSurfaced :=
  fun _ _ h => ⟨fun _ => refused_of_le h _ _, refused_of_le h _ _, fun _ => refused_of_le h _ _⟩

/-- Settles O35: TLBWR tests the number of wired entries before it looks at the fields. -/
theorem noVictimWhenEveryEntryIsWired : Obligations.NoVictimWhenEveryEntryIsWired :=
  fun _ _ _ _ h => refused_of_le h _ _

/-- Settles O33: past their guards both writes are the install step, which refuses the mask. -/
theorem illFormedMaskIsRefused : Obligations.IllFormedMaskIsRefused := by
  intro s f hmask
  have hrefused := installAt_of_not_wfMask ((wfMask_eq_false_iff ..).2 hmask)
  refine ⟨fun index hindex => ?_, fun wired rand hwired => ?_⟩
  · rw [exec_tlbwi_of_lt hindex, hrefused]
  · rw [exec_tlbwr_of_lt hwired, hrefused]

/-- Settles O38: past its guard TLBR reads the entry, and its answer is not Fatal. -/
theorem readReturnsTheEntry : Obligations.ReadReturnsTheEntry :=
  fun _ _ => exec_tlbr_of_lt

end Sys2Proof.Machine

/-! ### The two writes (41_tlb_maintenance.md R120 to R122, R130) -/

namespace Sys2Proof.Machine

open Sys2Proof

/-- R120: the install step's store, written out. -/
theorem install_installed {st : Store} {t : Nat} (f : EntryFields) (ht : t < st.entries.length) :
    Store.Installed st.entries.length st (st.install t f) t f := by
  refine ⟨install_sameFrame .., install_entry_target f ht, fun j hj hne => ?_⟩
  have hset : st.inOverlapSet t (Entry.ofFields f) j = true
      ↔ st.Overlapping (f.vpn &&& ~~~f.mask) f.mask f.g f.asid j :=
    (inOverlapSet_iff ..).trans (and_iff_right hne)
  rw [install_entry_other f hj hne, ← hset]
  exact ⟨fun h => if_pos h, fun h => if_neg h⟩

/-- Settles O31: the install step at the index. -/
theorem writeIndexedInstalls : Obligations.WriteIndexedInstalls := by
  intro s index f k hShape hindex hmask
  refine ⟨s.store.install index.toNat f, ?_, ?_⟩
  · rw [exec_tlbwi_of_lt hindex, installAt_of_wfMask (wfMask_of_maskOfShift hmask), BitVec.ofNat_toNat,
      BitVec.setWidth_eq]
  · rw [← hShape.length] at hindex ⊢
    exact install_installed f hindex

/-- R122: with a non-wired entry the victim is one. -/
theorem victim_lt {c : Config} {wired : IndexWord} (h : wired.toNat < c.ntlb) (rand : IndexWord) :
    victim c wired rand < c.ntlb := by
  have hmod := Nat.mod_lt rand.toNat (Nat.sub_pos_of_lt h)
  unfold victim
  omega

theorem wired_le_victim (c : Config) (wired rand : IndexWord) : wired.toNat ≤ victim c wired rand :=
  Nat.le_add_right ..

/-- R52: the index of an entry fits the 32-bit index result. -/
theorem toNat_index {c : Config} (hc : c.wf = true) {n : Nat} (hn : n < c.ntlb) : (BitVec.ofNat 32 n).toNat = n := by
  obtain ⟨-, -, -, -, -, hntlb⟩ := cfg_wf_bits hc
  rw [BitVec.toNat_ofNat, Nat.mod_eq_of_lt (hn.trans_le hntlb)]

/-- Settles O32: the install step at the victim, whose index the 32-bit result can name. -/
theorem writeRandomInstallsAtTheVictim : Obligations.WriteRandomInstallsAtTheVictim := by
  intro s wired rand f k hShape hwired hmask
  have hlt := victim_lt hwired rand
  refine ⟨s.store.install (victim s.cfg wired rand) f, BitVec.ofNat 32 (victim s.cfg wired rand), ?_, ?_⟩
  · rw [exec_tlbwr_of_lt hwired, installAt_of_wfMask (wfMask_of_maskOfShift hmask)]
  · rw [toNat_index hShape.cfgWf hlt]
    refine ⟨rfl, wired_le_victim .., hlt, ?_⟩
    rw [← hShape.length] at hlt ⊢
    exact install_installed f hlt

/-- Settles O36: a TLBWR that writes installs at a victim past the wired entries, and an install writes no other
field of another entry. -/
theorem wiredEntriesAreNotVictims : Obligations.WiredEntriesAreNotVictims := by
  intro s t wired rand f i h hi
  obtain ⟨r, rfl, -⟩ | ⟨n, f', -, -, hwrite, rfl⟩ | ⟨index, ext, hcmd, -⟩ | ⟨hcmd, -⟩ | ⟨hcmd, -⟩ := exec_cases h
  · rfl
  · obtain ⟨index, hcmd, -⟩ | ⟨wired', rand', hcmd, -, rfl⟩ := hwrite <;> cases hcmd
    exact install_other_fields _ _ _ (hi.trans_le (wired_le_victim ..)).ne
  all_goals cases hcmd

end Sys2Proof.Machine

/-! ### Invalidating and flushing (41_tlb_maintenance.md R125, R126) -/

namespace Sys2Proof.Machine

open Sys2Proof

/-- R125: of the other entries TLBINV invalidates the siblings. -/
theorem invalidate_entry_other {c : Config} {st : Store} {n j : Nat} (ext : Bool) (hj : j < st.entries.length)
    (hne : j ≠ n) :
    (st.invalidate c n ext).entry j = if st.isSibling c n ext j then (st.entry j).invalidate else st.entry j := by
  simp [invalidate_entry ext hj, hne]

/-- Settles O39, with the siblings written out. -/
theorem invalidateMarksTheEntry : Obligations.InvalidateMarksTheEntry := by
  rintro s index ext _ hShape hindex rfl
  refine ⟨_, exec_tlbinv_of_lt hindex ext, invalidate_sameFrame .., ?_, fun j hj hne => ?_⟩
  · rw [invalidate_entry ext (hShape.length.symm ▸ hindex), if_pos (.inl rfl)]
    rfl
  · rw [invalidate_entry_other ext (hShape.length.symm ▸ hj) hne]
    refine ⟨fun hext hmask hover => if_pos ((sib_iff ..).2 ⟨hext, hmask, hne, hover⟩), fun h => if_neg fun hsib => ?_⟩
    obtain ⟨hext, hmask, -, hover⟩ := (sib_iff ..).1 hsib
    exact h ⟨hext, hmask, hover⟩

/-- R126: TLBFLUSH in every state. -/
theorem exec_tlbflush (s : State) :
    exec .tlbflush s = .next { s with store := s.store.flush, rsp := some (Response.bare .ok) } :=
  congrArg _ (respond_of_not_fatal (by simp))

/-- Settles O40, entry by entry. -/
theorem flushMarksEveryEntry : Obligations.FlushMarksEveryEntry :=
  fun s hShape => ⟨s.store.flush, exec_tlbflush s, flush_sameFrame _, fun _ hi =>
    flush_entry (hShape.length.symm ▸ hi)⟩

end Sys2Proof.Machine

/-! ### The probe, also after a write and after a flush (41_tlb_maintenance.md R123, R128, R129) -/

namespace Sys2Proof.Machine

open Sys2Proof

theorem exec_tlbp_of_noHit {s : State} {va : Word} {asid : Nat} (h : s.NoHit va asid) :
    exec (.tlbp va asid) s = .next { s with rsp := some (Response.bare .notFound) } := by
  rw [exec, execTlbp, probeResponse_of_noHit h, respond_of_not_fatal (by simp)]

theorem exec_tlbp_of_unique {s : State} {va : Word} {asid : Nat} {i : IndexWord} (h : s.UniqueHit va asid i.toNat) :
    exec (.tlbp va asid) s = .next { s with rsp := some (Response.index i) } := by
  rw [exec, execTlbp, probeResponse_of_unique h, respond_of_not_fatal (by simp), BitVec.ofNat_toNat,
    BitVec.setWidth_eq]

/-- Settles O37: the probe answers by the list of matches alone, and neither answer is Fatal. -/
theorem probeFindsTheMatch : Obligations.ProbeFindsTheMatch :=
  fun _ _ _ => ⟨exec_tlbp_of_noHit, fun _ => exec_tlbp_of_unique⟩

/-- A guarded command that answered OK passed its guard. -/
theorem guard_of_ok {s a t : State} {n : Nat} {e : ErrReason}
    (h : (if n < s.cfg.ntlb then .next a else .next (s.respond (Response.bare (.err e)))
      : Host.Outcome State Fault Refusal) = .next t) (hok : t.answered .ok) : n < s.cfg.ntlb ∧ t = a := by
  split at h <;> cases h
  case isTrue hlt => exact ⟨hlt, rfl⟩
  case isFalse => simp [State.answered] at hok

/-- R120: an install step that answered OK wrote. -/
theorem installAt_of_ok {s : State} {n : Nat} {f : EntryFields} (hok : (s.installAt n f).answered .ok) :
    s.installAt n f
      = { s with store := s.store.install n f, rsp := some (Response.index (BitVec.ofNat 32 n)) } := by
  cases hmask : wfMask s.cfg f.mask with
  | true => exact installAt_of_wfMask hmask n
  | false =>
    rw [installAt_of_not_wfMask hmask] at hok
    simp [State.answered] at hok

/-- R120 to R122: a write that answered OK installed its fields at an index in range, which it answered. -/
theorem exec_write_of_ok {i : Instr} {s t : State} {f : EntryFields}
    (hi : (∃ index, i = .tlbwi index f) ∨ ∃ wired rand, i = .tlbwr wired rand f) (h : exec i s = .next t)
    (hok : t.answered .ok) :
    ∃ n < s.cfg.ntlb,
      t = { s with store := s.store.install n f, rsp := some (Response.index (BitVec.ofNat 32 n)) } := by
  obtain ⟨index, rfl⟩ | ⟨wired, rand, rfl⟩ := hi
  · obtain ⟨hlt, rfl⟩ := guard_of_ok h hok
    exact ⟨_, hlt, installAt_of_ok hok⟩
  · obtain ⟨hlt, rfl⟩ := guard_of_ok h hok
    exact ⟨_, victim_lt hlt rand, installAt_of_ok hok⟩

/-- R128: the installed entry matches every address of the written span, in its scope. -/
theorem install_hit {st : Store} {n : Nat} {f : EntryFields} (hlength : n < st.entries.length)
    (hcount : n < st.liveCount) {va : Word} {asid : Nat} (hspan : va &&& ~~~f.mask = f.vpn &&& ~~~f.mask)
    (hscope : f.g = true ∨ asid = f.asid) : (st.install n f).hit va asid n = true := by
  have hentry := install_entry_target f hlength
  have hlive : (st.install n f).live n = true := (live_iff ..).2 ⟨hcount, by rw [hentry]; rfl⟩
  rw [hit_iff, hentry]
  exact ⟨hlive, hspan, hscope.imp_right Eq.symm⟩

/-- Settles O42: the installed entry matches, and INV-OVERLAP after the install makes it the only match. -/
theorem writeThenProbeFindsTheIndex : Obligations.WriteThenProbeFindsTheIndex := by
  intro s t i f x r va asid hInv hi h hrsp hstatus hindex hspan hscope
  obtain ⟨n, hn, rfl⟩ := exec_write_of_ok (hi.imp_left fun hcmd => ⟨x, hcmd⟩) h ⟨r, hrsp, hstatus⟩
  have hlength : n < s.store.entries.length := hInv.shape.length.symm ▸ hn
  have hcount : n < s.store.liveCount := hInv.shape.liveCount.symm ▸ hn
  have hunique := unique_of_hit (install_invOverlap hInv.overlap hlength f) hn (install_hit hlength hcount hspan hscope)
  cases hrsp
  obtain rfl := Option.some.inj hindex
  refine exec_tlbp_of_unique ?_
  rw [toNat_index hInv.shape.cfgWf hn]
  exact hunique

/-- Every entry is EntryInvalid. -/
def Store.AllInvalid (st : Store) : Prop := ∀ j, (st.entry j).ei = true

/-- Invalid entries kept or invalidated stay invalid. -/
theorem allInvalid_of_keptOrInvalidated {st st' : Store} (h : st.AllInvalid)
    (hkept : ∀ j, st.KeptOrInvalidated st' j) : st'.AllInvalid := by
  intro j
  obtain hj | hj := hkept j
  · rw [hj, h j]
  · rw [hj, invalidate_ei]

/-- R129: only a write that answers OK makes an entry live. -/
theorem exec_keeps_allInvalid {i : Instr} {s t : State} (hs : s.store.AllInvalid) (h : exec i s = .next t)
    (hno : isWrite i = true → ¬t.answered .ok) : t.store.AllInvalid := by
  obtain ⟨r, rfl, -⟩ | ⟨n, f, -, -, hwrite, rfl⟩ | ⟨index, ext, -, -, rfl⟩ | ⟨-, rfl⟩ | ⟨-, rfl⟩ := exec_cases h
  · exact hs
  · have hi : isWrite i = true := by obtain ⟨index, rfl, -⟩ | ⟨wired, rand, rfl, -⟩ := hwrite <;> rfl
    exact absurd ⟨_, rfl, rfl⟩ (hno hi)
  · exact allInvalid_of_keptOrInvalidated hs (invalidate_entry_cases s.cfg s.store _ ext)
  · exact flush_entry_ei _
  · exact hs

theorem runWithoutWrite_keeps_allInvalid {is : List Instr} {s t : State} (hs : s.store.AllInvalid)
    (h : RunWithoutWrite is s t) : t.store.AllInvalid := by
  induction is generalizing s with
  | nil => exact h ▸ hs
  | cons i is ih =>
    obtain ⟨u, hexec, hno, hrun⟩ := h
    exact ih (exec_keeps_allInvalid hs hexec hno) hrun

theorem noHit_of_allInvalid {s : State} (h : s.store.AllInvalid) (va : Word) (asid : Nat) : s.NoHit va asid := by
  intro i _
  simp [Store.hit, Store.live, h i]

/-- Settles O43: a flush leaves no valid entry, the run makes none, and an invalid entry matches nothing. -/
theorem flushThenProbeFindsNothing : Obligations.FlushThenProbeFindsNothing := by
  rintro s _ u is va asid ⟨⟩ hrun
  have hflush : s.store.flush.AllInvalid := flush_entry_ei s.store
  exact exec_tlbp_of_noHit (noHit_of_allInvalid (runWithoutWrite_keeps_allInvalid hflush hrun) va asid)

end Sys2Proof.Machine

/-! ### What DERIVE latches (42_hflags.md R150 to R168)

DERIVE answers OK with the derived word in HFLAGS; each field of that word is its item's value, so every clause
below is about one item. -/

namespace Sys2Proof.Machine

open Sys2Proof

/-- R150: DERIVE's next state; its answer is not Fatal. -/
theorem exec_derive (s : State) :
    exec .derive s = .next { s with
      hflags := deriveHflags s.cfg s.cr s.dm, pamask := derivePamask s.cfg s.cr
      rsp := some (Response.bare .ok) } :=
  congrArg _ (respond_of_not_fatal (by simp))

/-- R154: the 64-bit datapath is the address width. -/
theorem w64_iff (c : Config) : c.w64 = true ↔ c.vaw = .w64 := by
  rw [Config.w64, beq_iff_eq]

/-! #### Items 1, 2 and 5: the mirrors and the level (R152, R153, R158, R159) -/

/-- R153: outside the three modes the level is Status.KSU. -/
theorem derivePl_of_no_special_mode {cr : ControlRegs} {dm : Bool}
    (h : cr.status.exl = false ∧ cr.status.erl = false ∧ dm = false) : derivePl cr dm = cr.status.ksu :=
  if_pos h

/-- R153: in any of the three modes the level is 0. -/
theorem derivePl_of_special_mode {cr : ControlRegs} {dm : Bool}
    (h : cr.status.exl = true ∨ cr.status.erl = true ∨ dm = true) : derivePl cr dm = 0 := by
  refine if_neg ?_
  rintro ⟨hexl, herl, hdm⟩
  simp [hexl, herl, hdm] at h

/-- Settles O49: ERL, FPU and F64 are items 1 and 5, which copy their Status bit. -/
theorem deriveMirrorsStatusBits : Obligations.DeriveMirrorsStatusBits := fun s =>
  ⟨_, _, exec_derive s, deriveHflags_erl .., deriveHflags_fpu .., deriveHflags_f64 .., deriveHflags_bit15 ..⟩

/-- Settles O50: PL is item 2, on both sides of its test. -/
theorem deriveCopiesThePrivilegeLevel : Obligations.DeriveCopiesThePrivilegeLevel := fun s =>
  ⟨_, exec_derive s, fun h => (deriveHflags_pl ..).trans (derivePl_of_no_special_mode h),
    fun h => (deriveHflags_pl ..).trans (derivePl_of_special_mode h)⟩

/-! #### Item 3: the addressing flags (R154, R155, R156) -/

section
variable {c : Config} (cr : ControlRegs) (dm : Bool)

/-- R154: without a 64-bit datapath both flags are 0. -/
theorem deriveA64_of_w32 (h : c.vaw = .w32) : deriveA64 c cr dm = false := by
  simp [deriveA64, Config.w64, h]

theorem deriveAwrap_of_w32 (h : c.vaw = .w32) : deriveAwrap c cr dm = false := by
  simp [deriveAwrap, Config.w64, h]

/-- R155: the condition of A64 on a 64-bit datapath. -/
theorem deriveA64_iff (h : c.vaw = .w64) :
    deriveA64 c cr dm = true
      ↔ c.caps.isa64 = true ∧ (derivePl cr dm ≠ 2 ∨ cr.status.ux = true ∨ cr.status.px = true) := by
  simp [deriveA64, (w64_iff c).2 h, or_assoc]

/-- R156: the four-way rule as the spec lists it, the first line that applies. -/
theorem deriveAwrap_eq (h : c.vaw = .w64) :
    deriveAwrap c cr dm =
      if c.caps.isa64 = false then true
      else if derivePl cr dm = 2 then !cr.status.ux
      else if c.caps.r6 = false then false
      else if derivePl cr dm = 1 then !cr.status.sx
      else if derivePl cr dm = 0 then !cr.status.kx
      else false := by
  rw [deriveAwrap, (w64_iff c).2 h]
  split_ifs with hisa huser hr6 hsup hker
  · simp [hisa]
  · simp [hisa, huser]
  · rw [beq_false_of_ne huser, hr6]
    simp [hisa]
  · simp [hisa, hr6, hsup]
  · simp [hisa, hr6, hker]
  · rw [beq_false_of_ne huser, beq_false_of_ne hsup, beq_false_of_ne hker]
    simp [hisa]

end

/-- Settles O51: R154 without a 64-bit datapath; with one, A64 is R155 and every AWRAP clause is a line of R156. -/
theorem deriveAddressingFlags : Obligations.DeriveAddressingFlags := by
  refine fun s => ⟨_, exec_derive s, fun hvaw => ?_, fun hvaw => ?_⟩
  · exact ⟨(deriveHflags_a64 ..).trans (deriveA64_of_w32 _ _ hvaw),
      (deriveHflags_awrap ..).trans (deriveAwrap_of_w32 _ _ hvaw)⟩
  · simp only [deriveHflags_a64, deriveHflags_awrap, deriveHflags_pl, deriveAwrap_eq _ _ hvaw]
    refine ⟨deriveA64_iff _ _ hvaw, fun hisa => ?_, fun hisa hpl => ?_, fun hisa hr6 hpl => ?_,
      fun hisa hr6 hpl => ?_, fun hisa hr6 hpl => ?_, fun hisa hpl => ?_⟩
    · exact if_pos hisa
    · simp [hisa, hpl]
    · simp [hisa, hr6, hpl]
    · simp [hisa, hr6, hpl]
    · rw [if_neg (by simp [hisa]), if_neg hpl, if_pos hr6]
    · simp [hisa, hpl]

/-! #### Items 4 and 6 to 11 (R157, R160, R161, R163 to R166) -/

/-- R157: Coprocessor 0 is usable by CU0 outside Release 6, or by the level. -/
theorem deriveCp0_iff (c : Config) (cr : ControlRegs) (dm : Bool) :
    deriveCp0 c cr dm = true ↔ (cr.status.cu0 = true ∧ c.caps.r6 = false) ∨ derivePl cr dm ≠ 2 := by
  rw [deriveCp0, Bool.or_eq_true, Bool.and_eq_true, Bool.not_eq_true', bne_iff_ne]

/-- R160: the SBRI trap is by the level and Config5. -/
theorem deriveSbri_iff (cr : ControlRegs) (dm : Bool) :
    deriveSbri cr dm = true ↔ derivePl cr dm ≠ 0 ∧ cr.config5.sbri = true := by
  rw [deriveSbri, Bool.and_eq_true, bne_iff_ne]

/-- Settles O52: the two items on the level just derived. -/
theorem deriveCoprocessorAndTrapFlags : Obligations.DeriveCoprocessorAndTrapFlags := by
  refine fun s => ⟨_, exec_derive s, ?_⟩
  simp only [deriveHflags_cp0, deriveHflags_sbri, deriveHflags_pl]
  exact ⟨deriveCp0_iff .., deriveSbri_iff ..⟩

section
variable {c : Config} {cr : ControlRegs}

/-- R161: without Status.MX neither DSP flag is set. -/
theorem deriveDspFlags_of_not_mx (h : cr.status.mx = false) : deriveDsp c cr = false ∧ deriveDspr2 c cr = false := by
  simp [deriveDsp, deriveDspr2, h]

/-- R161: DSP-R2 sets both flags. -/
theorem deriveDspFlags_of_dspr2 (hmx : cr.status.mx = true) (h : c.caps.dspr2 = true) :
    deriveDsp c cr = true ∧ deriveDspr2 c cr = true := by
  simp [deriveDsp, deriveDspr2, hmx, h]

/-- R161: without DSP-R2 plain DSP sets its own flag alone. -/
theorem deriveDspFlags_of_not_dspr2 (hmx : cr.status.mx = true) (h : c.caps.dspr2 = false) :
    deriveDsp c cr = c.caps.dsp ∧ deriveDspr2 c cr = false := by
  simp [deriveDsp, deriveDspr2, hmx, h]

end

/-- Settles O53: item 7 by its three cases; items 9, 10 and 11 are conjunctions. -/
theorem deriveExtensionFlags : Obligations.DeriveExtensionFlags := by
  refine fun s => ⟨_, exec_derive s, ?_⟩
  simp only [deriveHflags_dsp, deriveHflags_dspr2, deriveHflags_msa, deriveHflags_fre, deriveHflags_elpa]
  exact ⟨deriveDspFlags_of_not_mx, deriveDspFlags_of_dspr2, deriveDspFlags_of_not_dspr2, Bool.and_eq_true_iff ..,
    Bool.and_eq_true_iff .., Bool.and_eq_true_iff ..⟩

/-- Settles O54: the lines of item 8, each past the revisions before it. -/
theorem deriveCop1xByRevision : Obligations.DeriveCop1xByRevision := by
  refine fun s => ⟨_, exec_derive s, ?_⟩
  simp only [deriveHflags_cop1x, deriveHflags_a64, deriveCop1x]
  refine ⟨fun hr2 => ?_, fun hr2 hm32 => ?_, fun hr2 hm32 hmips4 => ?_, fun hr2 hm32 hmips4 => ?_⟩
  · simp [hr2]
  · simp [hr2, hm32]
  · simp [hr2, hm32, hmips4]
  · simp [hr2, hm32, hmips4]

/-! #### The mask (R167) -/

/-- R167: in a legal configuration the derived mask is its width in ones, not cut by the 64 bits of a word. -/
theorem derivePamask_toNat {c : Config} (hc : c.wf = true) (cr : ControlRegs) :
    (derivePamask c cr).toNat = 2 ^ (if deriveElpa cr = true then c.pabitsExt else c.pabitsBase) - 1 := by
  obtain ⟨hbase, hext, -⟩ := cfg_wf_bits hc
  refine ones_toNat ?_
  split
  · exact hext
  · exact hbase.trans hext

/-- Settles O55: the mask of the ELPA just derived. -/
theorem deriveLatchesThePhysicalMask : Obligations.DeriveLatchesThePhysicalMask := by
  refine fun s hc => ⟨_, exec_derive s, ?_⟩
  rw [deriveHflags_elpa]
  exact derivePamask_toNat hc s.cr

/-! #### The dependency set (R151)

The straps and the inputs DERIVE reads, with everything else at a fixed value: the derived values are the same on
these. -/

/-- The straps of the dependency set. -/
def strapsRead (c : Config) : Config :=
  { Config.vectors with caps := c.caps, vaw := c.vaw, pabitsBase := c.pabitsBase, pabitsExt := c.pabitsExt }

/-- The control-register inputs of the dependency set. -/
def inputsRead (cr : ControlRegs) : ControlRegs :=
  { ControlRegs.zero with
    status := { cr.status with ie := false, im := 0 }
    config3 := { cr.config3 with veic := false }
    pageGrain := cr.pageGrain, config5 := cr.config5, fpir := cr.fpir }

theorem deriveHflags_read (c : Config) (cr : ControlRegs) (dm : Bool) :
    deriveHflags (strapsRead c) (inputsRead cr) dm = deriveHflags c cr dm := rfl

theorem derivePamask_read (c : Config) (cr : ControlRegs) :
    derivePamask (strapsRead c) (inputsRead cr) = derivePamask c cr := rfl

/-- Settles O56: states that agree on the dependency set have the same inputs of DERIVE. -/
theorem deriveReadsOnlyItsInputs : Obligations.DeriveReadsOnlyItsInputs := by
  intro s s' t t' hcaps hvaw hbase hext herl hexl hksu hux hsx hkx hpx hcu0 hcu1 hcu3 hfr hmx hdm hconfig5 hfpir
    hlpa hpageGrain h h'
  cases (exec_derive s).symm.trans h
  cases (exec_derive s').symm.trans h'
  have hcfg : strapsRead s.cfg = strapsRead s'.cfg := by
    simp only [strapsRead, hcaps, hvaw, hbase, hext]
  have hcr : inputsRead s.cr = inputsRead s'.cr := by
    simp only [inputsRead, herl, hexl, hksu, hux, hsx, hkx, hpx, hcu0, hcu1, hcu3, hfr, hmx, hconfig5,
      hfpir, hlpa, hpageGrain]
  constructor
  · calc deriveHflags s.cfg s.cr s.dm
      _ = deriveHflags (strapsRead s.cfg) (inputsRead s.cr) s.dm := (deriveHflags_read ..).symm
      _ = deriveHflags (strapsRead s'.cfg) (inputsRead s'.cr) s'.dm := by rw [hcfg, hcr, hdm]
      _ = deriveHflags s'.cfg s'.cr s'.dm := deriveHflags_read ..
  · calc derivePamask s.cfg s.cr
      _ = derivePamask (strapsRead s.cfg) (inputsRead s.cr) := (derivePamask_read ..).symm
      _ = derivePamask (strapsRead s'.cfg) (inputsRead s'.cr) := by rw [hcfg, hcr]
      _ = derivePamask s'.cfg s'.cr := derivePamask_read ..

end Sys2Proof.Machine

/-! ### The Interrupt Gate, the Activation Gate and the FP mode synchronisers (60_exceptions.md R192 to R201) -/

namespace Sys2Proof.Machine

open Sys2Proof

/-! #### The gates (R192 to R196) -/

/-- R193: the five conditions of `interruptsGloballyEnabled`. -/
theorem irqEnabled_iff (s : State) :
    s.irqEnabled = true ↔ s.cr.status.ie = true ∧ s.cr.status.exl = false ∧ s.cr.status.erl = false
      ∧ s.dm = false ∧ s.cr.tcStatus.ixmt = false := by
  simp only [State.irqEnabled, Bool.and_eq_true, Bool.not_eq_true', and_assoc]

/-- R194: the vectored controller compares the two fields as numbers. -/
theorem irqPending_iff_of_vectored {s : State} (h : s.cr.config3.veic = true) :
    s.irqPending = true ↔ s.cr.cause.ip.toNat > s.cr.status.im.toNat := by
  rw [State.irqPending, if_pos h, decide_eq_true_iff]

/-- Two words have a common bit exactly when their conjunction is not zero. -/
theorem and_ne_zero_iff_common_bit {w : Nat} (x y : BitVec w) :
    x &&& y ≠ 0#w ↔ ∃ k, x.getLsbD k = true ∧ y.getLsbD k = true := by
  simp only [Ne, BitVec.zero_iff_eq_false, not_forall, BitVec.getLsbD_and, Bool.not_eq_false, Bool.and_eq_true]

/-- R194: without the vectored controller some line is requested and not masked. -/
theorem irqPending_iff_of_not_vectored {s : State} (h : s.cr.config3.veic = false) :
    s.irqPending = true ↔ ∃ k, s.cr.cause.ip.getLsbD k = true ∧ s.cr.status.im.getLsbD k = true := by
  rw [State.irqPending, if_neg (by simp [h]), bne_iff_ne]
  exact and_ne_zero_iff_common_bit ..

/-- R192: the conjunction of the two predicates. -/
theorem irqDeliverable_iff (s : State) : s.irqDeliverable = true ↔ s.irqEnabled = true ∧ s.irqPending = true :=
  Bool.and_eq_true_iff ..

/-- R195: each of the four conditions alone makes the thread context inactive. -/
theorem tcActive_eq_false_iff (s : State) :
    s.tcActive = false ↔ s.cr.mvpControl.evp = false ∨ s.cr.vpeConf0.vpa = false ∨ s.cr.tcStatus.a = false
      ∨ s.cr.tcHalt.h = true := by
  simp only [State.tcActive, Bool.and_eq_false_iff, Bool.not_eq_false', or_assoc]

/-- R196: exclusive mode is its own, or no sibling's. -/
theorem vpActive_iff (s : State) : s.vpActive = true ↔ s.cr.vp.exclSelf = true ∨ s.cr.vp.exclSibling = false := by
  rw [State.vpActive, Bool.or_eq_true, Bool.not_eq_true']

/-- Settles O58: the outputs are the predicates; R194 by the controller. -/
theorem interruptGateIsExact : Obligations.InterruptGateIsExact := fun s =>
  ⟨irqEnabled_iff s, irqPending_iff_of_vectored, irqPending_iff_of_not_vectored, irqDeliverable_iff s⟩

/-- Settles O59: the outputs are the two predicates. -/
theorem activationGateIsExact : Obligations.ActivationGateIsExact := fun s =>
  ⟨tcActive_eq_false_iff s, vpActive_iff s⟩

/-! #### The synchronisers (R199 to R201) -/

/-- R199: the table's row for each value of a rounding field. -/
theorem rmTable_mode_of_row {t : RmTable} {rm : BitVec 2} {mode : RoundingMode}
    (h : (rm = 0 ∧ mode = t.rm0) ∨ (rm = 1 ∧ mode = t.rm1) ∨ (rm = 2 ∧ mode = t.rm2) ∨ (rm = 3 ∧ mode = t.rm3)) :
    RmTable.mode t rm = mode := by
  obtain ⟨rfl, rfl⟩ | ⟨rfl, rfl⟩ | ⟨rfl, rfl⟩ | ⟨rfl, rfl⟩ := h <;> rfl

/-- Settles O60: each synchroniser looks its own register's field up; the flags are copied. -/
theorem fpSynchronisersFollowTheirRegister : Obligations.FpSynchronisersFollowTheirRegister := by
  refine fun s => ⟨rfl, rfl, fun rm mode hrow => ?_⟩
  have hmode : RmTable.mode s.cfg.rmTable rm = mode := rmTable_mode_of_row hrow
  exact ⟨fun hscalar => (congrArg _ hscalar).trans hmode, fun hsimd => (congrArg _ hsimd).trans hmode⟩

end Sys2Proof.Machine

/-! ### Reset (70_reset_and_hazards.md R210 to R216)

The reset input and the model's own reset each leave a state of `State.IsReset`. Such a state has no valid entry,
so no lookup of it finds a match. -/

namespace Sys2Proof.Machine

open Sys2Proof

/-- R216: an EntryInvalid entry matches nothing, and a reset state has no other. -/
theorem noHit_of_isReset {s : State} (h : s.IsReset) (va : Word) (asid : Nat) : s.NoHit va asid := by
  intro i hi
  simp [Store.hit, Store.live, h.invalid i hi]

/-- Settles O9: the move is driven, then the reset input is applied, which writes no input and no strap. -/
theorem resetInputLeavesAResetState : Obligations.ResetInputLeavesAResetState := by
  intro s m rest hc he hr
  have hreset : (s.drive m rest).applyReset.IsReset := applyReset_isReset hc
  exact ⟨_, step_of_reset he hr, hreset, rfl, rfl, rfl, rfl, rfl, rfl⟩

/-- Settles O11: with no match, XLATE is a refill miss and the probe finds nothing. -/
theorem emptyTlbMissesEverything : Obligations.EmptyTlbMissesEverything := by
  intro s va kind asid hreset
  have hno : s.NoHit va asid := noHit_of_isReset hreset va asid
  exact ⟨fun hs hk => noMatchIsARefillMiss s va kind asid hs hk hno, exec_tlbp_of_noHit hno⟩

/-- Settles O10: the named zeros fit every width, and reset records no Fatal response. -/
theorem resetStateIsAllowed : Obligations.ResetStateIsAllowed :=
  ⟨by decide, fun _ hc => ⟨resetOf_isReset hc, rfl⟩⟩

end Sys2Proof.Machine
